-- ==== Sys2Proof/Word.lean ====
section
/-! DEFINITION. The word types of the LS-8 core (spec/00_scope.md R5, R6, R7). -/

namespace Sys2Proof

/-- A register value, a memory byte, an immediate, an opcode or an operand byte: an unsigned number 0 to 255
(00_scope.md R5 `XLEN`, R7). -/
abbrev Byte := BitVec 8

/-- The program counter's word: 9 bits (10_state.md R27). -/
abbrev PcWord := BitVec 9

/-- One of the eight register indices 0 to 7 (10_state.md R21). -/
abbrev RegIndex := Fin 8

end Sys2Proof
end

