-- ==== Sys2Proof/Config.lean ====
section
/-! DEFINITION. The fixed values and the parameters of the hardware (spec/00_scope.md R5), the parameters at the
spec's defaults. The opcode numbers, which the spec also calls a parameter, are in Sys2Proof/Decode.lean. -/

namespace Sys2Proof.Config

/-- The spec's own label for this hardware (00_scope.md R1, decision D34). -/
abbrev identity : String := "LS-8/fbzr-v7-22"

/-- `MEM_SIZE`: 256 one-byte cells, addresses 0 to 255 (00_scope.md R5, 20_memory.md R50). -/
abbrev memSize : Nat := 256

/-- `NREG`: eight registers (00_scope.md R5, 10_state.md R21). -/
abbrev numRegs : Nat := 8

/-- `SP_INDEX`: the stack pointer is `x[7]` (00_scope.md R5, 10_state.md R22). -/
abbrev spIndex : RegIndex := 7

/-- `SP_INIT`: the stack pointer at reset, which also means "the stack is empty" (10_state.md R38, 43_stack.md R180). -/
abbrev spInit : Byte := 0xF4#8

/-- `PC_INIT`: the entry point (10_state.md R38, 70_reset_and_hazards.md R264). -/
abbrev pcInit : PcWord := 0#9

/-- `REG_INIT`: `x[0]` to `x[6]` at reset. PRESUMED (unsafe, log 4): the spec's decision D16. -/
abbrev regInit : Byte := 0x00#8

/-- `FL_INIT`: the flags `LGE` at reset. PRESUMED (unsafe, log 5): the spec's decision D15. -/
abbrev flInit : BitVec 3 := 0b000#3

/-- `IR_INIT`: the instruction register at reset. PRESUMED (unsafe, log 6): the spec's decision D17. -/
abbrev irInit : Byte := 0x00#8

/-- `MEM_FILL`: a memory cell outside the loaded program. PRESUMED (unsafe, log 7): the spec's decision D18. -/
abbrev memFill : Byte := 0x00#8

end Sys2Proof.Config
end

