-- ==== Sys2Proof/Machine/State.lean ====
section
/-! DEFINITION. The complete state of the core, plain data (spec/10_state.md R20), the reasons a step can stop, and
the state after reset (spec/10_state.md R38, spec/70_reset_and_hazards.md R261). -/

namespace Sys2Proof.Machine

/-- `FL`: the 3-bit condition code (10_state.md R30). -/
structure Flags where
  /-- `FL[2]`, Less. -/
  l : Bool
  /-- `FL[1]`, Greater. -/
  g : Bool
  /-- `FL[0]`, Equal. -/
  e : Bool
  deriving DecidableEq, Repr

/-- The flags of a 3-bit value: `L` bit 2, `G` bit 1, `E` bit 0 (10_state.md R30, decision D14, log 10). -/
def Flags.ofBits (v : BitVec 3) : Flags := ⟨v.getLsbD 2, v.getLsbD 1, v.getLsbD 0⟩

/-- The flags as a 3-bit value, the inverse of `Flags.ofBits` (10_state.md R30). -/
def Flags.toBits (f : Flags) : BitVec 3 :=
  BitVec.ofBool f.l ++ BitVec.ofBool f.g ++ BitVec.ofBool f.e

/-- The six kinds of fault (60_exceptions.md R220). -/
inductive FaultKind where
  | outOfBounds
  | invalidRegister
  | unsupportedInstruction
  | unsupportedALUOperation
  | divisionByZero
  | emptyStack
  deriving DecidableEq, Repr

/-- The fault record (60_exceptions.md R230): the kind, the PC of the faulting step, IR after the step, and the
integer of 60_exceptions.md R220's third column, or nothing. -/
structure FaultRecord where
  kind : FaultKind
  pc : PcWord
  ir : Byte
  info : Option Int
  deriving DecidableEq, Repr

/-- `RUN`, the state of the Execution Engine (10_state.md R36, 40_engine_cycle.md R110). -/
inductive RunState where
  | running
  | halted
  | faulted (r : FaultRecord)
  deriving DecidableEq, Repr

/-- `x[0]` to `x[7]` (10_state.md R21). -/
abbrev RegFile := Vector Byte 8

/-- `MEM[0..255]` as (address, byte) pairs in one canonical form: addresses strictly rising and below 256, and no pair
whose byte is what an unlisted address reads as (`Config.memFill`). The form is `Memory.wf` of Machine/Ops.lean. -/
abbrev Memory := List Host.Cell

/-- The seven elements of 10_state.md R20, and nothing else. -/
structure State where
  /-- `x[0]` to `x[7]`; `x[7]` is the stack pointer (10_state.md R21, R22). -/
  regs : RegFile
  /-- `PC`, 9 bits (10_state.md R26, R27). -/
  pc : PcWord
  /-- `IR`, the opcode byte most recently fetched (10_state.md R29). -/
  ir : Byte
  /-- `FL`, the flags (10_state.md R30 to R32). -/
  fl : Flags
  /-- `MEM`, the 256 cells (10_state.md R35). -/
  mem : Memory
  /-- `RUN` (10_state.md R36). -/
  run : RunState
  /-- `OUT`, the values handed to the output sink, oldest first (10_state.md R34). -/
  out : List Byte
  deriving DecidableEq, Repr

/-- Why the step function has no next state. The six faults of 60_exceptions.md are NOT here: raising one is a next
state whose `RUN` is `faulted` (60_exceptions.md R229, log 2). -/
inductive Fault where
  /-- Raised by `step` alone, in a state whose `RUN` is `Halted`: the core takes no step there
  (40_engine_cycle.md R111, 93_implementation_defined.md U23 `stuck`). Safe. -/
  | stuckHalted
  /-- Raised by `step` alone, in a state whose `RUN` is `Faulted`: the core takes no step there
  (40_engine_cycle.md R111, 93_implementation_defined.md U23 `stuck`). Safe. -/
  | stuckFaulted
  deriving DecidableEq, Repr

/-- What the model gives no meaning. -/
inductive Refusal where
  /-- An instruction without a meaning, raised by `exec`'s arm for it. No arm raises it now. Safe. -/
  | notModelled (mnemonic : String)
  /-- Raised by `resetWith` (the host's reset), never by a step, for a program image of more than 256 bytes
  (70_reset_and_hazards.md R263, 93_implementation_defined.md U6 `refuse`). Safe. -/
  | imageTooLong (length : Nat)
  deriving DecidableEq, Repr

/-- The machine right after `reset` with the empty program: every field at the value of 10_state.md R38, and memory
with nothing listed. A program comes in by `resetWith` of Machine/Reset.lean (log 3). -/
def State.reset : State where
  regs := (Vector.replicate 8 Config.regInit).set Config.spIndex Config.spInit
  pc := Config.pcInit
  ir := Config.irInit
  fl := Flags.ofBits Config.flInit
  mem := []
  run := .running
  out := []

end Sys2Proof.Machine
end

