-- ==== Sys2Proof/Machine/Ops.lean ====
section
/-! DEFINITION. The named operations over registers, memory and the stack, and raising a fault
(spec/10_state.md, spec/20_memory.md, spec/43_stack.md, spec/60_exceptions.md). -/

namespace Sys2Proof.Machine

/-! ## Causes of a fault and raising one -/

/-- What `raise` is given: one of the six conditions of 60_exceptions.md R220 with its information. -/
inductive Cause where
  /-- An address outside 0 to 255 (60_exceptions.md R221). -/
  | outOfBounds (addr : Int)
  /-- A register operand byte above 7 (60_exceptions.md R222). -/
  | invalidRegister (i : Byte)
  /-- An unsupported opcode with bit 5 clear (60_exceptions.md R223). -/
  | unsupportedInstruction (ir : Byte)
  /-- An unsupported opcode with bit 5 set (60_exceptions.md R224). -/
  | unsupportedALUOperation (ir : Byte)
  /-- A zero divisor (60_exceptions.md R225). -/
  | divisionByZero
  /-- A pop or return at the initial stack pointer (60_exceptions.md R226). -/
  | emptyStack
  deriving DecidableEq, Repr

/-- The kind of a cause (60_exceptions.md R220). -/
def Cause.kind : Cause → FaultKind
  | .outOfBounds _ => .outOfBounds
  | .invalidRegister _ => .invalidRegister
  | .unsupportedInstruction _ => .unsupportedInstruction
  | .unsupportedALUOperation _ => .unsupportedALUOperation
  | .divisionByZero => .divisionByZero
  | .emptyStack => .emptyStack

/-- The information recorded with a cause (60_exceptions.md R220, third column). -/
def Cause.info : Cause → Option Int
  | .outOfBounds addr => some addr
  | .invalidRegister i => some (Int.ofNat i.toNat)
  | .unsupportedInstruction ir => some (Int.ofNat ir.toNat)
  | .unsupportedALUOperation ir => some (Int.ofNat ir.toNat)
  | .divisionByZero => none
  | .emptyStack => none

/-- Fault entry: `RUN <- Faulted(kind, pc = p, ir = IR, info)` and nothing else (60_exceptions.md R229). There is no
return beside it: nothing resumes a faulted core, and only the host's reset leaves the state (60_exceptions.md R231,
R242; `resetWith` of Machine/Reset.lean). -/
def raise (c : Cause) (s : State) : State :=
  { s with run := .faulted { kind := c.kind, pc := s.pc, ir := s.ir, info := c.info } }

/-- The outcome of an instruction begun in `s`: all of its writes, or, when it raises, none of them and the fault entry
(60_exceptions.md R228, 40_engine_cycle.md R119). -/
def orRaise (s : State) (r : Except Cause State) : Host.Outcome State Fault Refusal :=
  match r with
  | .ok t => .next t
  | .error c => .next (raise c s)

/-! ## Registers -/

/-- `check_reg(i)`: the whole operand byte is the index, and 8 to 255 raise `InvalidRegister(i)` (10_state.md R24). -/
def checkReg (i : Byte) : Except Cause RegIndex :=
  if h : i.toNat < 8 then .ok ⟨i.toNat, h⟩ else .error (.invalidRegister i)

/-- `x[r]` as a value (10_state.md R24). -/
def State.reg (s : State) (r : RegIndex) : Byte := s.regs[r]

/-- `x[r] <- v` (10_state.md R24). -/
def State.setReg (s : State) (r : RegIndex) (v : Byte) : State := { s with regs := s.regs.set r v }

/-- `SP`, an alias of `x[7]` (10_state.md R22). -/
def State.sp (s : State) : Byte := s.reg Config.spIndex

/-- `SP <- v` is `x[7] <- v` (10_state.md R22). -/
def State.setSp (s : State) (v : Byte) : State := s.setReg Config.spIndex v

/-! ## Program counter, instruction register, flags, engine state, output -/

/-- `zext_9(v)`: an 8-bit value entering the 9-bit PC (00_scope.md R8, 44_control_flow.md R190). -/
def zext9 (v : Byte) : PcWord := v.setWidth 9

/-- `pc <- target` (00_scope.md R8). -/
def State.setPc (s : State) (target : PcWord) : State := { s with pc := target }

/-- The advance over an instruction of `n` operand bytes: `PC <- PC + n + 1` (40_engine_cycle.md R116). The sum is
not reduced modulo 256. From a PC of at most 255 it is at most 258 and fits the 9 bits (log 11). -/
def State.advance (s : State) (n : Nat) : State := s.setPc (s.pc + BitVec.ofNat 9 (n + 1))

/-- `IR <- v` (40_engine_cycle.md R112). -/
def State.setIr (s : State) (v : Byte) : State := { s with ir := v }

/-- `FL <- f` (41_alu.md R152). -/
def State.setFl (s : State) (f : Flags) : State := { s with fl := f }

/-- `RUN <- Halted` (45_system.md R210). -/
def State.halt (s : State) : State := { s with run := .halted }

/-- `emit(v)`: appends `v` to `OUT` (00_scope.md R8, 10_state.md R34). -/
def State.emit (s : State) (v : Byte) : State := { s with out := s.out ++ [v] }

/-! ## Memory -/

/-- The canonical form of memory: addresses strictly rising and inside 0 to 255, and no pair whose byte is what an
unlisted address reads as. -/
abbrev Memory.wf (m : Memory) : Prop :=
  m.Pairwise (fun c d => c.1 < d.1) ∧ ∀ c ∈ m, c.1 < Config.memSize ∧ c.2 ≠ Config.memFill

/-- The byte of a cell. A cell that is not listed reads as `MEM_FILL` (10_state.md R38, log 7). -/
def Memory.read : Memory → Nat → Byte
  | [], _ => Config.memFill
  | (k, w) :: rest, a => if k = a then w else Memory.read rest a

/-- Puts a cell before memory that lists only higher addresses, keeping the canonical form: a cell that holds what an
unlisted address reads as is not listed. -/
def Memory.cons (a : Nat) (v : Byte) (m : Memory) : Memory := if v = Config.memFill then m else (a, v) :: m

/-- Memory with one cell rewritten, in canonical form. -/
def Memory.write : Memory → Nat → Byte → Memory
  | [], a, v => Memory.cons a v []
  | (k, w) :: rest, a, v =>
    if a < k then Memory.cons a v ((k, w) :: rest)
    else if a = k then Memory.cons a v rest
    else (k, w) :: Memory.write rest a v

/-- The state with its memory replaced. -/
def State.setMem (s : State) (m : Memory) : State := { s with mem := m }

/-- `MemRead(addr, 1)` (20_memory.md R51). -/
def memRead (s : State) (addr : Int) : Except Cause Byte :=
  if addr < 0 ∨ 255 < addr then .error (.outOfBounds addr) else .ok (s.mem.read addr.toNat)

/-- `MemWrite(addr, 1, v)`: stores `v mod 256` (20_memory.md R52). -/
def memWrite (s : State) (addr v : Int) : Except Cause State :=
  if addr < 0 ∨ 255 < addr then .error (.outOfBounds addr)
  else .ok (s.setMem (s.mem.write addr.toNat (BitVec.ofInt 8 v)))

/-! ## The stack pointer's checks -/

/-- Where a push or a call stores: `SP - 1`, or `OutOfBounds(-1)` when `SP = 0` (43_stack.md R181, 44_control_flow.md
R191, 90_conflicts.md C3). -/
def pushAddress (s : State) : Except Cause Byte :=
  if s.sp = 0#8 then .error (.outOfBounds (-1)) else .ok (s.sp - 1#8)

/-- `EmptyStack` when `SP` is at its initial value, and nothing else is looked at (43_stack.md R182, 60_exceptions.md
R226, 90_conflicts.md C2). -/
def checkNotEmpty (s : State) : Except Cause Unit :=
  if s.sp = Config.spInit then .error .emptyStack else .ok ()

/-- The incremented stack pointer, or `OutOfBounds` when it would leave 0 to 255 (43_stack.md R182, 44_control_flow.md
R192, 90_conflicts.md C3). -/
def incrementedSp (n : Nat) : Except Cause Byte :=
  if 255 < n then .error (.outOfBounds (Int.ofNat n)) else .ok (BitVec.ofNat 8 n)

end Sys2Proof.Machine
end

