-- ==== Sys2Proof/Machine/Flags.lean ====
section
/-! DEFINITION. The one flag computation of the hardware, that of CMP, and the one flag test, that of JEQ and JNE
(spec/41_alu.md R152, R154, spec/10_state.md R31). -/

namespace Sys2Proof.Machine

/-- The three flags of a compare, unsigned, all recomputed (41_alu.md R152). -/
def compareFlags (u v : Byte) : Flags :=
  if u.toNat = v.toNat then { l := false, g := false, e := true }
  else if u.toNat < v.toNat then { l := true, g := false, e := false }
  else { l := false, g := true, e := false }

/-- `FL.E = 1`, the only flag any instruction reads (10_state.md R31). -/
def State.equalFlag (s : State) : Bool := s.fl.e

end Sys2Proof.Machine
end

