-- ==== Sys2Proof/Machine/Operands.lean ====
section
/-! DEFINITION. The operand forms (spec/30_encoding.md R83 to R85): the check of every register operand, in the order
operand a, operand b, before anything is written (spec/41_alu.md R140, spec/60_exceptions.md R227). The third operand
form, the immediate of LDI, is the byte itself and is never checked (spec/30_encoding.md R85). -/

namespace Sys2Proof.Machine

/-- The operand of format F1R and operand a of format F2RI: one register index. -/
def operandR (a : Byte) : Except Cause RegIndex := checkReg a

/-- The operands of format F2RR: two register indices, a checked before b. -/
def operandRR (a b : Byte) : Except Cause (RegIndex × RegIndex) := do
  let ra ← checkReg a
  let rb ← checkReg b
  pure (ra, rb)

/-- The template of the two-operand ALU operations that write a register (41_alu.md R140): both register values are
read, the operation gives a result or its own fault, the result is written into operand a's register, and the engine
advances over the three bytes. -/
def aluWrite (a b : Byte) (op : Byte → Byte → Except Cause Byte) (s : State) : Host.Outcome State Fault Refusal :=
  orRaise s do
    let (ra, rb) ← operandRR a b
    let result ← op (s.reg ra) (s.reg rb)
    pure ((s.setReg ra result).advance 2)

end Sys2Proof.Machine
end

