-- ==== Sys2Proof/Machine/Alu.lean ====
section
/-! DEFINITION. The 12 ALU operations (spec/41_alu.md): first the combinational datapath, then the instructions. -/

namespace Sys2Proof.Machine

/-! ## The datapath: unsigned results computed exactly, then kept to 8 bits (41_alu.md R153) -/

/-- `(u + v) mod 256` (41_alu.md R141). -/
def aluAdd (u v : Byte) : Byte := BitVec.ofNat 8 (u.toNat + v.toNat)

/-- `(u - v) mod 256` (41_alu.md R142). -/
def aluSub (u v : Byte) : Byte := BitVec.ofInt 8 (Int.ofNat u.toNat - Int.ofNat v.toNat)

/-- `(u * v) mod 256` (41_alu.md R143). -/
def aluMul (u v : Byte) : Byte := BitVec.ofNat 8 (u.toNat * v.toNat)

/-- The floor quotient, or `DivisionByZero` (41_alu.md R144). -/
def aluDiv (u v : Byte) : Except Cause Byte :=
  if v.toNat = 0 then .error .divisionByZero else .ok (BitVec.ofNat 8 (u.toNat / v.toNat))

/-- The remainder, or `DivisionByZero` (41_alu.md R145). -/
def aluMod (u v : Byte) : Except Cause Byte :=
  if v.toNat = 0 then .error .divisionByZero else .ok (BitVec.ofNat 8 (u.toNat % v.toNat))

/-- Bit by bit `u AND v` (41_alu.md R146). -/
def aluAnd (u v : Byte) : Byte := u &&& v

/-- Bit by bit `u OR v` (41_alu.md R147). -/
def aluOr (u v : Byte) : Byte := u ||| v

/-- Bit by bit `u XOR v` (41_alu.md R148). -/
def aluXor (u v : Byte) : Byte := u ^^^ v

/-- `255 - u`, every bit inverted (41_alu.md R149). -/
def aluNot (u : Byte) : Byte := BitVec.ofNat 8 (255 - u.toNat)

/-- `(u * 2^v) mod 256`: the whole of `v` is the count (41_alu.md R150). -/
def aluShl (u v : Byte) : Byte := BitVec.ofNat 8 (u.toNat * 2 ^ v.toNat)

/-- `u div 2^v`: a logical shift, the whole of `v` is the count (41_alu.md R151). -/
def aluShr (u v : Byte) : Byte := BitVec.ofNat 8 (u.toNat / 2 ^ v.toNat)

/-! ## The instructions -/

/-- `ADD Ra,Rb` (41_alu.md R141). -/
def execAdd (a b : Byte) (s : State) : Host.Outcome State Fault Refusal :=
  aluWrite a b (fun u v => .ok (aluAdd u v)) s

/-- `SUB Ra,Rb` (41_alu.md R142). -/
def execSub (a b : Byte) (s : State) : Host.Outcome State Fault Refusal :=
  aluWrite a b (fun u v => .ok (aluSub u v)) s

/-- `MUL Ra,Rb` (41_alu.md R143). -/
def execMul (a b : Byte) (s : State) : Host.Outcome State Fault Refusal :=
  aluWrite a b (fun u v => .ok (aluMul u v)) s

/-- `DIV Ra,Rb` (41_alu.md R144). -/
def execDiv (a b : Byte) (s : State) : Host.Outcome State Fault Refusal :=
  aluWrite a b aluDiv s

/-- `MOD Ra,Rb` (41_alu.md R145). -/
def execMod (a b : Byte) (s : State) : Host.Outcome State Fault Refusal :=
  aluWrite a b aluMod s

/-- `AND Ra,Rb` (41_alu.md R146). -/
def execAnd (a b : Byte) (s : State) : Host.Outcome State Fault Refusal :=
  aluWrite a b (fun u v => .ok (aluAnd u v)) s

/-- `OR Ra,Rb` (41_alu.md R147). -/
def execOr (a b : Byte) (s : State) : Host.Outcome State Fault Refusal :=
  aluWrite a b (fun u v => .ok (aluOr u v)) s

/-- `XOR Ra,Rb` (41_alu.md R148). -/
def execXor (a b : Byte) (s : State) : Host.Outcome State Fault Refusal :=
  aluWrite a b (fun u v => .ok (aluXor u v)) s

/-- `NOT Ra`: one operand, two bytes (41_alu.md R149). -/
def execNot (a : Byte) (s : State) : Host.Outcome State Fault Refusal :=
  orRaise s do
    let ra ← operandR a
    pure ((s.setReg ra (aluNot (s.reg ra))).advance 1)

/-- `SHL Ra,Rb` (41_alu.md R150). -/
def execShl (a b : Byte) (s : State) : Host.Outcome State Fault Refusal :=
  aluWrite a b (fun u v => .ok (aluShl u v)) s

/-- `SHR Ra,Rb` (41_alu.md R151). -/
def execShr (a b : Byte) (s : State) : Host.Outcome State Fault Refusal :=
  aluWrite a b (fun u v => .ok (aluShr u v)) s

/-- `CMP Ra,Rb`: writes the flags and no register (41_alu.md R152). -/
def execCmp (a b : Byte) (s : State) : Host.Outcome State Fault Refusal :=
  orRaise s do
    let (ra, rb) ← operandRR a b
    pure ((s.setFl (compareFlags (s.reg ra) (s.reg rb))).advance 2)

end Sys2Proof.Machine
end

