-- ==== Sys2Proof/Machine/Control.lean ====
section
/-! DEFINITION. Control transfer (spec/44_control_flow.md): CALL, RET, JMP, JEQ and JNE. All five have `C = 1`: the
handler writes PC in every case, taken or not (spec/40_engine_cycle.md R116, spec/90_conflicts.md C5). -/

namespace Sys2Proof.Machine

/-- `CALL Ra` (44_control_flow.md R191): pushes the return address `p + 2`, and reads `x[a]` after the push. -/
def execCall (a : Byte) (s : State) : Host.Outcome State Fault Refusal :=
  orRaise s do
    let ra ← operandR a
    let addr ← pushAddress s
    let s1 := s.setSp addr
    let s2 ← memWrite s1 (Int.ofNat addr.toNat) (Int.ofNat (s.pc.toNat + 2))
    pure (s2.setPc (zext9 (s2.reg ra)))

/-- `RET` (44_control_flow.md R192). -/
def execRet (s : State) : Host.Outcome State Fault Refusal :=
  orRaise s do
    checkNotEmpty s
    let sp' ← incrementedSp (s.sp.toNat + 1)
    let t ← memRead s (Int.ofNat s.sp.toNat)
    pure ((s.setSp sp').setPc (zext9 t))

/-- `JMP Ra` (44_control_flow.md R193). -/
def execJmp (a : Byte) (s : State) : Host.Outcome State Fault Refusal :=
  orRaise s do
    let ra ← operandR a
    pure (s.setPc (zext9 (s.reg ra)))

/-- `JEQ Ra` (44_control_flow.md R194): the operand is checked whether or not the jump is taken. -/
def execJeq (a : Byte) (s : State) : Host.Outcome State Fault Refusal :=
  orRaise s do
    let ra ← operandR a
    pure (if s.equalFlag then s.setPc (zext9 (s.reg ra)) else s.advance 1)

/-- `JNE Ra` (44_control_flow.md R195): the operand is checked whether or not the jump is taken. -/
def execJne (a : Byte) (s : State) : Host.Outcome State Fault Refusal :=
  orRaise s do
    let ra ← operandR a
    pure (if s.equalFlag then s.advance 1 else s.setPc (zext9 (s.reg ra)))

end Sys2Proof.Machine
end

