-- ==== Sys2Proof/Machine/DataMove.lean ====
section
/-! DEFINITION. Data movement and output (spec/42_data_movement_output.md): LDI and PRN. -/

namespace Sys2Proof.Machine

/-- `LDI Ra,imm` (42_data_movement_output.md R170). -/
def execLdi (a imm : Byte) (s : State) : Host.Outcome State Fault Refusal :=
  orRaise s do
    let ra ← operandR a
    pure ((s.setReg ra imm).advance 2)

/-- `PRN Ra` (42_data_movement_output.md R171). -/
def execPrn (a : Byte) (s : State) : Host.Outcome State Fault Refusal :=
  orRaise s do
    let ra ← operandR a
    pure ((s.emit (s.reg ra)).advance 1)

end Sys2Proof.Machine
end

