-- ==== Sys2Proof/Machine/Stack.lean ====
section
/-! DEFINITION. Stack operations (spec/43_stack.md): PUSH and POP, in the document's statement order, so that `x[7]`
named as the operand is read after `SP` was decremented and written before `SP` is incremented
(spec/90_conflicts.md C10). -/

namespace Sys2Proof.Machine

/-- `PUSH Ra` (43_stack.md R181). -/
def execPush (a : Byte) (s : State) : Host.Outcome State Fault Refusal :=
  orRaise s do
    let ra ← operandR a
    let addr ← pushAddress s
    let s1 := s.setSp addr
    let s2 ← memWrite s1 (Int.ofNat addr.toNat) (Int.ofNat (s1.reg ra).toNat)
    pure (s2.advance 1)

/-- `POP Ra` (43_stack.md R182). -/
def execPop (a : Byte) (s : State) : Host.Outcome State Fault Refusal :=
  orRaise s do
    let ra ← operandR a
    checkNotEmpty s
    let v ← memRead s (Int.ofNat s.sp.toNat)
    let sp' ← incrementedSp (if ra = Config.spIndex then v.toNat + 1 else s.sp.toNat + 1)
    pure (((s.setReg ra v).setSp sp').advance 1)

end Sys2Proof.Machine
end

