-- ==== Sys2Proof/Machine/System.lean ====
section
/-! DEFINITION. System instructions (spec/45_system.md): HLT. -/

namespace Sys2Proof.Machine

/-- `HLT`: `RUN <- Halted`, and the advance of the same cycle moves PC past it (45_system.md R210). -/
def execHlt (s : State) : Host.Outcome State Fault Refusal :=
  .next (s.halt.advance 0)

end Sys2Proof.Machine
end

