-- ==== Sys2Proof/Syntax.lean ====
section
/-! DEFINITION. The 22 instructions of the LS-8 core, one constructor for each row of spec/opcode_table.json
(spec/00_scope.md R2, spec/30_encoding.md R83, R86). -/

namespace Sys2Proof

/-- An instruction with its operand bytes as they are fetched. An operand byte that names a register is the WHOLE
byte, 0 to 255: the check that it is an index 0 to 7 is made when the instruction executes (30_encoding.md R84,
40_engine_cycle.md R114, log 8). -/
inductive Instr where
  /-- `ADD Ra,Rb` (41_alu.md R141). -/
  | add (a b : Byte)
  /-- `SUB Ra,Rb` (41_alu.md R142). -/
  | sub (a b : Byte)
  /-- `MUL Ra,Rb` (41_alu.md R143). -/
  | mul (a b : Byte)
  /-- `DIV Ra,Rb` (41_alu.md R144). -/
  | div (a b : Byte)
  /-- `MOD Ra,Rb` (41_alu.md R145). -/
  | mod (a b : Byte)
  /-- `AND Ra,Rb` (41_alu.md R146). -/
  | and (a b : Byte)
  /-- `OR Ra,Rb` (41_alu.md R147). -/
  | or (a b : Byte)
  /-- `XOR Ra,Rb` (41_alu.md R148). -/
  | xor (a b : Byte)
  /-- `NOT Ra` (41_alu.md R149). -/
  | not (a : Byte)
  /-- `SHL Ra,Rb` (41_alu.md R150). -/
  | shl (a b : Byte)
  /-- `SHR Ra,Rb` (41_alu.md R151). -/
  | shr (a b : Byte)
  /-- `CMP Ra,Rb` (41_alu.md R152). -/
  | cmp (a b : Byte)
  /-- `LDI Ra,imm` (42_data_movement_output.md R170). -/
  | ldi (a imm : Byte)
  /-- `PRN Ra` (42_data_movement_output.md R171). -/
  | prn (a : Byte)
  /-- `PUSH Ra` (43_stack.md R181). -/
  | push (a : Byte)
  /-- `POP Ra` (43_stack.md R182). -/
  | pop (a : Byte)
  /-- `CALL Ra` (44_control_flow.md R191). -/
  | call (a : Byte)
  /-- `RET` (44_control_flow.md R192). -/
  | ret
  /-- `JMP Ra` (44_control_flow.md R193). -/
  | jmp (a : Byte)
  /-- `JEQ Ra` (44_control_flow.md R194). -/
  | jeq (a : Byte)
  /-- `JNE Ra` (44_control_flow.md R195). -/
  | jne (a : Byte)
  /-- `HLT` (45_system.md R210). -/
  | hlt
  deriving DecidableEq, Repr

end Sys2Proof
end

