-- ==== Sys2Proof/Decode.lean ====
section
/-! DEFINITION. The opcode map, the decoder and, after it, the encoder (spec/30_encoding.md). -/

namespace Sys2Proof

/-- What the decoder of 30_encoding.md R89 selects from the opcode byte alone: one of the 22 operations. -/
inductive Mnemonic where
  | add | sub | mul | div | mod | and | or | xor | not | shl | shr | cmp
  | ldi | prn | push | pop | call | ret | jmp | jeq | jne | hlt
  deriving DecidableEq, Repr

/-- The two classes of unsupported opcode bytes (30_encoding.md R89, R90). -/
inductive Unsupported where
  /-- Bit 5 is set and the byte is none of the 12 ALU opcodes. -/
  | alu (ir : Byte)
  /-- Bit 5 is clear and the byte is none of the 10 handler opcodes. -/
  | dispatch (ir : Byte)
  deriving DecidableEq, Repr

/-- Why bytes are no instruction. -/
inductive DecodeError where
  /-- There is no opcode byte. -/
  | noOpcode
  /-- The opcode byte is unsupported (30_encoding.md R90). -/
  | unsupported (u : Unsupported)
  /-- The opcode is supported and fewer than its `AA` operand bytes follow (30_encoding.md R82). -/
  | operandsMissing (ir : Byte)
  deriving DecidableEq, Repr

/-! ## The fields of the opcode byte `AABCDDDD` (30_encoding.md R81) -/

/-- `AA`, bits 7 and 6: the number of operand bytes (30_encoding.md R81, R82). -/
def operandCount (ir : Byte) : Nat := (ir.extractLsb' 6 2).toNat

/-- `B`, bit 5: the opcode goes to the ALU (30_encoding.md R81). -/
def aluBit (ir : Byte) : Bool := ir.getLsbD 5

/-- `C`, bit 4: the instruction sets PC itself, and the engine does not advance after it (30_encoding.md R81). -/
def setsPcBit (ir : Byte) : Bool := ir.getLsbD 4

/-- `DDDD`, bits 3 to 0: the identifier (30_encoding.md R81). -/
def identifierBits (ir : Byte) : Nat := (ir.extractLsb' 0 4).toNat

/-! ## The opcode map (30_encoding.md R86) -/

/-- `OPC`: the opcode byte of each operation (30_encoding.md R86). LDI, PRN and HLT are the document's. The other
19 are the spec's decision D1, the commonly published LS-8 numbers (PRESUMED, unsafe, log 1). -/
def Mnemonic.opcode : Mnemonic → Byte
  | .add => 0xA0#8
  | .sub => 0xA1#8
  | .mul => 0xA2#8
  | .div => 0xA3#8
  | .mod => 0xA4#8
  | .cmp => 0xA7#8
  | .and => 0xA8#8
  | .or => 0xAA#8
  | .xor => 0xAB#8
  | .shl => 0xAC#8
  | .shr => 0xAD#8
  | .not => 0x69#8
  | .ldi => 0x82#8
  | .prn => 0x47#8
  | .push => 0x45#8
  | .pop => 0x46#8
  | .call => 0x50#8
  | .ret => 0x11#8
  | .jmp => 0x54#8
  | .jeq => 0x55#8
  | .jne => 0x56#8
  | .hlt => 0x01#8

/-- The 22 operations in the order of 30_encoding.md R86. -/
def Mnemonic.all : List Mnemonic :=
  [.add, .sub, .mul, .div, .mod, .cmp, .and, .or, .xor, .shl, .shr,
   .not, .ldi, .prn, .push, .pop, .call, .ret, .jmp, .jeq, .jne, .hlt]

/-! ## The decoder -/

/-- `decode(ir)` of 30_encoding.md R89: total on the 256 opcode bytes, reading the opcode byte only. -/
def decodeOpcode (ir : Byte) : Except Unsupported Mnemonic :=
  match Mnemonic.all.find? (fun m => m.opcode == ir) with
  | some m => .ok m
  | none => if aluBit ir then .error (.alu ir) else .error (.dispatch ir)

/-- The instruction of an operation and its operand bytes (30_encoding.md R83). An operand the format does not have
is ignored: bytes beyond the operand count are not part of the instruction (30_encoding.md R94). -/
def Mnemonic.build (m : Mnemonic) (a b : Byte) : Instr :=
  match m with
  | .add => .add a b
  | .sub => .sub a b
  | .mul => .mul a b
  | .div => .div a b
  | .mod => .mod a b
  | .and => .and a b
  | .or => .or a b
  | .xor => .xor a b
  | .not => .not a
  | .shl => .shl a b
  | .shr => .shr a b
  | .cmp => .cmp a b
  | .ldi => .ldi a b
  | .prn => .prn a
  | .push => .push a
  | .pop => .pop a
  | .call => .call a
  | .ret => .ret
  | .jmp => .jmp a
  | .jeq => .jeq a
  | .jne => .jne a
  | .hlt => .hlt

/-- Reads one instruction from the front of a list of bytes, the opcode at the lowest address (20_memory.md R54), and
gives it with the bytes that follow it. Exactly `AA` operand bytes are taken (30_encoding.md R82, R94), and an
unsupported opcode is reported before any operand byte is looked at (40_engine_cycle.md R113). -/
def decode : List Byte → Except DecodeError (Instr × List Byte)
  | [] => .error .noOpcode
  | ir :: rest =>
    match decodeOpcode ir with
    | .error u => .error (.unsupported u)
    | .ok m =>
      if rest.length < operandCount ir then .error (.operandsMissing ir)
      else .ok (m.build (rest.getD 0 0) (rest.getD 1 0), rest.drop (operandCount ir))

/-! ## The encoder -/

/-- The operation of an instruction. -/
def Instr.mnemonic : Instr → Mnemonic
  | .add _ _ => .add
  | .sub _ _ => .sub
  | .mul _ _ => .mul
  | .div _ _ => .div
  | .mod _ _ => .mod
  | .and _ _ => .and
  | .or _ _ => .or
  | .xor _ _ => .xor
  | .not _ => .not
  | .shl _ _ => .shl
  | .shr _ _ => .shr
  | .cmp _ _ => .cmp
  | .ldi _ _ => .ldi
  | .prn _ => .prn
  | .push _ => .push
  | .pop _ => .pop
  | .call _ => .call
  | .ret => .ret
  | .jmp _ => .jmp
  | .jeq _ => .jeq
  | .jne _ => .jne
  | .hlt => .hlt

/-- The instruction's opcode byte (30_encoding.md R86). -/
def Instr.opcode (i : Instr) : Byte := i.mnemonic.opcode

/-- The operand bytes in the order of 30_encoding.md R83: byte 1, then byte 2. -/
def Instr.operandBytes : Instr → List Byte
  | .add a b | .sub a b | .mul a b | .div a b | .mod a b
  | .and a b | .or a b | .xor a b | .shl a b | .shr a b
  | .cmp a b => [a, b]
  | .ldi a imm => [a, imm]
  | .not a | .prn a | .push a | .pop a | .call a
  | .jmp a | .jeq a | .jne a => [a]
  | .ret | .hlt => []

/-- The bytes of an instruction at ascending addresses (30_encoding.md R80, R83). -/
def encode (i : Instr) : List Byte := i.opcode :: i.operandBytes

/-! ## The words of spec/opcode_table.json -/

/-- The three bytes of the longest instruction that an opcode-table word of `nbits` bits stands for: bit 0 of the word
is bit 0 of the first byte, the bytes go to ascending addresses, and every bit from `nbits` on is 0. -/
def tableWordBytes (nbits w : Nat) : List Byte :=
  let v := w % 2 ^ nbits
  [BitVec.ofNat 8 v, BitVec.ofNat 8 (v / 256), BitVec.ofNat 8 (v / 65536)]

/-- The instruction the decoder reads from an opcode-table word. -/
def decodeTableWord (nbits w : Nat) : Option Instr :=
  match decode (tableWordBytes nbits w) with
  | .ok (i, _) => some i
  | .error _ => none

end Sys2Proof
end

