-- ==== Sys2Proof/Machine/Fetch.lean ====
section
/-! DEFINITION. Fetch, decode and operand fetch (spec/40_engine_cycle.md R112 to R114, spec/20_memory.md R61). -/

namespace Sys2Proof.Machine

/-- The opcode fetch: `MemRead(PC, 1)` (40_engine_cycle.md R112). -/
def fetchOpcode (s : State) : Except Cause Byte := memRead s (Int.ofNat s.pc.toNat)

/-- Operand byte number `k` (1 for a, 2 for b) of an instruction with `n` operand bytes: read when it is there, and not
read at all otherwise (40_engine_cycle.md R114, 30_encoding.md R94). The 0 of an operand the format does not have is a
placeholder that no instruction keeps. -/
def fetchOperand (s : State) (n k : Nat) : Except Cause Byte :=
  if k ≤ n then memRead s (Int.ofNat (s.pc.toNat + k)) else .ok 0

/-- The cause an unsupported opcode raises (40_engine_cycle.md R113). -/
def unsupportedCause : Unsupported → Cause
  | .alu ir => .unsupportedALUOperation ir
  | .dispatch ir => .unsupportedInstruction ir

/-- Decode from IR alone (40_engine_cycle.md R113). -/
def decodeIr (s : State) : Except Cause Mnemonic :=
  match decodeOpcode s.ir with
  | .ok m => .ok m
  | .error u => .error (unsupportedCause u)

/-- The instruction at PC once its opcode is in IR: decode first, then exactly `AA` operand bytes in ascending address
order (40_engine_cycle.md R113, R114, 90_conflicts.md C4). -/
def fetchInstr (s : State) : Except Cause Instr := do
  let m ← decodeIr s
  let a ← fetchOperand s (operandCount s.ir) 1
  let b ← fetchOperand s (operandCount s.ir) 2
  pure (m.build a b)

/-- The bytes from PC up to the top of memory, at most three (30_encoding.md R80): what the engine's own reads can
reach. It is used to state which instruction stands at PC. -/
def State.codeBytes (s : State) : List Byte :=
  ((List.range 3).filter (fun k => s.pc.toNat + k < Config.memSize)).map (fun k => s.mem.read (s.pc.toNat + k))

/-- Memory with bytes stored at ascending addresses from `a`. A byte that would fall outside 0 to 255 is dropped. -/
def Memory.writeBytes (m : Memory) (a : Nat) : List Byte → Memory
  | [] => m
  | v :: rest => Memory.writeBytes (if a < Config.memSize then m.write a v else m) (a + 1) rest

end Sys2Proof.Machine
end

