-- ==== Sys2Proof/Machine/Step.lean ====
section
/-! DEFINITION. One cycle of the execution engine (spec/40_engine_cycle.md R118). -/

namespace Sys2Proof.Machine

/-- The cycle of a running core: fetch, decode, operand fetch, execute and advance (40_engine_cycle.md R118). A fault of
the opcode fetch leaves IR as it was, and a later fault keeps the fetched opcode (60_exceptions.md R228). The advance of
R116 is the last part of each meaning. -/
def cycle (s : State) : Host.Outcome State Fault Refusal :=
  match fetchOpcode s with
  | .error c => .next (raise c s)
  | .ok ir =>
    match fetchInstr (s.setIr ir) with
    | .error c => .next (raise c (s.setIr ir))
    | .ok i => exec i (s.setIr ir)

/-- One step. The core takes a step only while `RUN = Running` (40_engine_cycle.md R111). In `Halted` and `Faulted` the
step function has no transition, which is a stop of its own name (93_implementation_defined.md U23, log 2). -/
def step (s : State) : Host.Outcome State Fault Refusal :=
  match s.run with
  | .running => cycle s
  | .halted => .fault .stuckHalted
  | .faulted _ => .fault .stuckFaulted

/-- The state with the instruction of an opcode-table word stored where the next step fetches: at PC, the opcode at the
lowest address (20_memory.md R54). Only memory changes. A byte past address 255 is dropped (log 3). -/
def State.withFetchWord (s : State) (nbits w : Nat) : State :=
  s.setMem (s.mem.writeBytes s.pc.toNat (tableWordBytes nbits w))

end Sys2Proof.Machine
end

