-- ==== Sys2Proof/Machine/Interface.lean ====
section
/-! DEFINITION. What the outside sees of the core (spec/00_scope.md R12): the output port, the fault record's numbers,
the rendering of the output and the suggested exit status. Nothing here is read by a step. -/

namespace Sys2Proof.Machine

/-- `fault_kind[2:0]`: 1 to 6 in the order of 60_exceptions.md R220. -/
def FaultKind.code : FaultKind → BitVec 3
  | .outOfBounds => 1#3
  | .invalidRegister => 2#3
  | .unsupportedInstruction => 3#3
  | .unsupportedALUOperation => 4#3
  | .divisionByZero => 5#3
  | .emptyStack => 6#3

/-- The fault record while `status = Faulted` (60_exceptions.md R230). -/
def State.faultRecord (s : State) : Option FaultRecord :=
  match s.run with
  | .faulted r => some r
  | .running => none
  | .halted => none

/-- The `fault_kind` port: the code, or 0 for no fault (60_exceptions.md R220). -/
def State.faultKindPort (s : State) : BitVec 3 :=
  match s.faultRecord with
  | some r => r.kind.code
  | none => 0#3

/-- `out_valid` and `out_data` of the step from `before` to `after`: the value the step appended to `OUT`, if it
appended one (00_scope.md R12, 10_state.md R34). -/
def outPort (before after : State) : Option Byte := (after.out.drop before.out.length).head?

/-- One value as the sink writes it: the shortest decimal numeral and a line feed (10_state.md R34). -/
def renderByte (v : Byte) : List Char := Nat.toDigits 10 v.toNat ++ ['\n']

/-- The whole output as text (10_state.md R34). -/
def State.rendered (s : State) : List Char := s.out.flatMap renderByte

/-- The suggested exit status of an ended run: 0 for `Halted`, the fault code for `Faulted` (60_exceptions.md R240).
A running core has none. -/
def State.exitStatus (s : State) : Option Nat :=
  match s.run with
  | .running => none
  | .halted => some 0
  | .faulted r => some r.kind.code.toNat

end Sys2Proof.Machine
end

