-- ==== Sys2Proof/Machine/Reset.lean ====
section
/-! DEFINITION. The host's one move, `reset(PROGRAM)` (spec/70_reset_and_hazards.md R260 to R264). -/

namespace Sys2Proof.Machine

/-- The reset state with a program image in memory from address 0 (70_reset_and_hazards.md R261, R262). -/
def loadedState (program : List Byte) : State :=
  State.reset.setMem (State.reset.mem.writeBytes 0 program)

/-- `reset(PROGRAM)`. The image has at most 256 bytes; a longer one is refused by name and given no meaning
(70_reset_and_hazards.md R263, log 9). -/
def resetWith (program : List Byte) : Host.Outcome State Fault Refusal :=
  if program.length ≤ Config.memSize then .next (loadedState program)
  else .refused (.imageTooLong program.length)

/-- Reset applied in any state, `Halted` and `Faulted` among them: nothing survives it (70_reset_and_hazards.md R260). -/
def hostReset (program : List Byte) (_before : State) : Host.Outcome State Fault Refusal := resetWith program

end Sys2Proof.Machine
end

