-- ==== Sys2Proof/Safety.lean ====
section
/-! DEFINITION. What counts as a safe run, and the invariant of the machine, in the terms the statements use. -/

namespace Sys2Proof.Machine

/-- No fault has been raised (60_exceptions.md R242). -/
abbrev State.notFaulted (s : State) : Prop := ∀ r, s.run ≠ .faulted r

/-- The run ended well: `RUN = Halted` (40_engine_cycle.md R122, 60_exceptions.md R242). -/
abbrev State.endedWell (s : State) : Prop := s.run = .halted

/-- At most one flag is set: `FL` is `000`, `100`, `010` or `001` (10_state.md R32). -/
abbrev Flags.legal (f : Flags) : Prop :=
  f = ⟨false, false, false⟩ ∨ f = ⟨true, false, false⟩ ∨ f = ⟨false, true, false⟩ ∨ f = ⟨false, false, true⟩

/-- The information a fault of each kind records (60_exceptions.md R220, R221). -/
def FaultRecord.consistent (r : FaultRecord) : Prop :=
  match r.kind with
  | .outOfBounds => r.info = some (-1) ∨ r.info = some 256
  | .invalidRegister => ∃ i : Byte, 7 < i.toNat ∧ r.info = some (Int.ofNat i.toNat)
  | .unsupportedInstruction => aluBit r.ir = false ∧ r.info = some (Int.ofNat r.ir.toNat)
  | .unsupportedALUOperation => aluBit r.ir = true ∧ r.info = some (Int.ofNat r.ir.toNat)
  | .divisionByZero => r.info = none
  | .emptyStack => r.info = none

/-- The machine's invariant: memory keeps its canonical form, `PC` is 0 to 256 (40_engine_cycle.md R123), `FL` is one
of its four values (10_state.md R32), and a fault record agrees with the state it was raised in and records what its
kind records (60_exceptions.md R220, R228, R230). -/
structure Inv (s : State) : Prop where
  memWf : s.mem.wf
  pcRange : s.pc.toNat ≤ 256
  flagsLegal : s.fl.legal
  record : ∀ r, s.run = .faulted r → r.pc = s.pc ∧ r.ir = s.ir ∧ r.consistent

end Sys2Proof.Machine
end

