-- ==== Sys2Proof/WellFormed.lean ====
section
/-! DEFINITION. Which instructions the assembly notation can write: every register operand is `R0` to `R7`
(spec/30_encoding.md R84, R95). The machine also decodes and executes the others; they raise `InvalidRegister`
(spec/10_state.md R24, log 8). -/

namespace Sys2Proof

/-- The operand byte names one of the eight registers (10_state.md R24). -/
def namesRegister (i : Byte) : Bool := decide (i.toNat < Config.numRegs)

/-- Every register operand of the instruction is an index 0 to 7. LDI's operand b is an immediate and is never
checked (60_exceptions.md R222). -/
def Instr.wf : Instr → Bool
  | .add a b | .sub a b | .mul a b | .div a b | .mod a b
  | .and a b | .or a b | .xor a b | .shl a b | .shr a b
  | .cmp a b => namesRegister a && namesRegister b
  | .not a | .ldi a _ | .prn a | .push a | .pop a
  | .call a | .jmp a | .jeq a | .jne a => namesRegister a
  | .ret | .hlt => true

/-- The check of `Instr.wf` as a decidable proposition. -/
abbrev WellFormed (i : Instr) : Prop := i.wf = true

end Sys2Proof
end

