-- ==== Sys2Proof/Certificates/Slice0/Obligations.lean ====
section
/-! DEFINITION. The statements for the provers, from the numbered rules of spec/. First the few terms they share. -/

namespace Sys2Proof.Claims

open Sys2Proof.Machine

/-- The state in which a fault of kind `k` was raised from `s`: only `RUN` differs (60_exceptions.md R229, R230). -/
def faulted (s : State) (k : FaultKind) (info : Option Int) : State :=
  { s with run := .faulted { kind := k, pc := s.pc, ir := s.ir, info := info } }

/-- The register file with `x[r]` replaced by `v` (10_state.md R24). -/
def put (regs : RegFile) (r : RegIndex) (v : Byte) : RegFile := regs.set r v

/-- `PC <- p + k`, where `p` is the address of the instruction (10_state.md R28). -/
def pcPlus (s : State) (k : Nat) : PcWord := BitVec.ofNat 9 (s.pc.toNat + k)

/-- `raise InvalidRegister(i)` is what the instruction does (60_exceptions.md R222). -/
def raisesInvalidRegister (i : Instr) (s : State) (index : Byte) : Prop :=
  exec i s = .next (faulted s .invalidRegister (some (Int.ofNat index.toNat)))

/-- The whole of a rule of 41_alu.md for a two-operand operation that writes a register and has no fault of its own:
the encoding, the result with everything else unchanged, and the two `InvalidRegister` faults in their order. -/
def twoOperandRule (i : Instr) (opcode a b : Byte) (result : Nat → Nat → Nat) : Prop :=
  encode i = [opcode, a, b] ∧ ∀ s : State,
    (∀ ra rb : RegIndex, a.toNat = ra.val → b.toNat = rb.val →
      exec i s = .next { s with
        regs := put s.regs ra (BitVec.ofNat 8 (result (s.reg ra).toNat (s.reg rb).toNat)), pc := pcPlus s 3 }) ∧
    (7 < a.toNat → raisesInvalidRegister i s a) ∧
    (a.toNat ≤ 7 → 7 < b.toNat → raisesInvalidRegister i s b)

/-- The same for a division operation, which has the fault `DivisionByZero` after the two register checks. -/
def divisionRule (i : Instr) (opcode a b : Byte) (result : Nat → Nat → Nat) : Prop :=
  encode i = [opcode, a, b] ∧ ∀ s : State,
    (∀ ra rb : RegIndex, a.toNat = ra.val → b.toNat = rb.val →
      ((s.reg rb).toNat ≠ 0 → exec i s = .next { s with
        regs := put s.regs ra (BitVec.ofNat 8 (result (s.reg ra).toNat (s.reg rb).toNat)), pc := pcPlus s 3 }) ∧
      ((s.reg rb).toNat = 0 → exec i s = .next (faulted s .divisionByZero none))) ∧
    (7 < a.toNat → raisesInvalidRegister i s a) ∧
    (a.toNat ≤ 7 → 7 < b.toNat → raisesInvalidRegister i s b)

/-- The eleven ALU operations that write a register, with the byte that names the destination (41_alu.md R140). -/
def aluDestination : Instr → Option Byte
  | .add a _ | .sub a _ | .mul a _ | .div a _ | .mod a _ | .and a _ | .or a _ | .xor a _
  | .not a | .shl a _ | .shr a _ => some a
  | .cmp _ _ | .ldi _ _ | .prn _ | .push _ | .pop _ | .call _ | .ret | .jmp _ | .jeq _ | .jne _ | .hlt => none

/-- The outcome with the flags of its next state replaced. -/
def withFlags (f : Flags) : Host.Outcome State Fault Refusal → Host.Outcome State Fault Refusal
  | .next t => .next { t with fl := f }
  | .fault r => .fault r
  | .refused r => .refused r

/-- The twelve ALU opcodes and the ten handler opcodes of 30_encoding.md R86. -/
def aluOpcodes : List Byte :=
  [0xA0#8, 0xA1#8, 0xA2#8, 0xA3#8, 0xA4#8, 0xA7#8, 0xA8#8, 0xAA#8, 0xAB#8, 0xAC#8, 0xAD#8, 0x69#8]

/-- See `aluOpcodes`. -/
def handlerOpcodes : List Byte :=
  [0x82#8, 0x47#8, 0x45#8, 0x46#8, 0x50#8, 0x11#8, 0x54#8, 0x55#8, 0x56#8, 0x01#8]

/-- All 256 opcode bytes. -/
def allBytes : List Byte := (List.range 256).map (BitVec.ofNat 8)

/-- The fault a state stands in, if any, is of kind `k`. -/
def inFault (t : State) (k : FaultKind) : Prop := ∃ r, t.run = .faulted r ∧ r.kind = k

end Sys2Proof.Claims

open Sys2Proof Sys2Proof.Machine Sys2Proof.Claims

/-! ## Encoding, decoding and the cycle -/

/-- Decode and encode agree on all instructions with all operand bytes, well formed or not: the bytes that decode to `i`
with `rest` left over are exactly `encode i` followed by `rest` (30_encoding.md R80 to R84, R89, R94). The opcode
numbers are the spec's decision D1 (log 1). -/
def Obligations.DecodeGivesExactlyTheEncodedInstruction : Prop :=
  ∀ (bytes rest : List Byte) (i : Instr), decode bytes = .ok (i, rest) ↔ bytes = encode i ++ rest

/-- Words written out from 30_encoding.md R86 and from the document's one encoded program decode to the instructions
they stand for, one for each family; the numbers other than LDI, PRN and HLT are the spec's decision D1 (log 1). -/
def Obligations.WrittenOutWordsDecode : Prop :=
  decode [0b10000010#8, 0b00000000#8, 0b00001000#8] = .ok (.ldi 0 8, []) ∧
  decode [0b01000111#8, 0b00000000#8] = .ok (.prn 0, []) ∧
  decode [0b00000001#8] = .ok (.hlt, []) ∧
  decode [0b10100001#8, 0b00000011#8, 0b00000101#8] = .ok (.sub 3 5, []) ∧
  decode [0b01101001#8, 0b00000110#8] = .ok (.not 6, []) ∧
  decode [0b01000101#8, 0b00000010#8] = .ok (.push 2, []) ∧
  decode [0b01010000#8, 0b00000001#8] = .ok (.call 1, []) ∧
  decode [0b00010001#8, 0b11111111#8] = .ok (.ret, [0xFF#8])

/-- A step of a running core executes the instruction that the bytes at PC decode to, with its opcode in IR and nothing
else changed before it (40_engine_cycle.md R112 to R118). The instruction's own advance is part of `exec` (log 11). -/
def Obligations.StepExecutesTheDecodedInstruction : Prop :=
  ∀ (s : State) (i : Instr) (rest : List Byte), s.run = .running → decode s.codeBytes = .ok (i, rest) →
    step s = exec i { s with ir := i.opcode }

/-- A step has a next state exactly while `RUN = Running`; in `Halted` and `Faulted` there is none, so no fetch, no
state change and no output (40_engine_cycle.md R110 and R118, 93_implementation_defined.md U23). That a raise counts
as a next state, and the two stops' names, are the model's choice (log 2). -/
def Obligations.StepExistsExactlyWhileRunning : Prop :=
  ∀ s : State,
    ((∃ t, step s = .next t) ↔ s.run = .running) ∧
    (s.run = .halted → step s = .fault .stuckHalted) ∧
    (∀ r, s.run = .faulted r → step s = .fault .stuckFaulted)

/-- `PC > 255` raises `OutOfBounds(PC)` with IR unchanged; otherwise the step puts `MEM[PC]` in IR; and the fetch does
not change PC: what executes finds PC where it was (40_engine_cycle.md section 2; that a PC past 255 faults is the
spec's decision D2, log 12; that a raise is a next state is log 2). -/
def Obligations.OpcodeFetchLoadsIrOrFaults : Prop :=
  ∀ s : State, s.run = .running →
    (255 < s.pc.toNat → step s = .next (faulted s .outOfBounds (some (Int.ofNat s.pc.toNat)))) ∧
    (s.pc.toNat ≤ 255 →
      (∀ t, step s = .next t → t.ir = s.mem.read s.pc.toNat) ∧
      (∀ i, fetchInstr { s with ir := s.mem.read s.pc.toNat } = .ok i →
        step s = exec i { s with ir := s.mem.read s.pc.toNat }) ∧
      (∀ c, fetchInstr { s with ir := s.mem.read s.pc.toNat } = .error c →
        step s = .next (faulted { s with ir := s.mem.read s.pc.toNat } c.kind c.info)))

/-- 118 opcode bytes, `0x00` among them, raise `UnsupportedInstruction(ir)` at decode, and only they do
(60_exceptions.md section 1; which ten bytes are handlers is the spec's decision D1, log 1, and that decode comes before
the operand reads is D4, log 12). -/
def Obligations.UnsupportedDispatchOpcodesFault : Prop :=
  (∀ s : State, s.run = .running → s.pc.toNat ≤ 255 →
    aluBit (s.mem.read s.pc.toNat) = false → s.mem.read s.pc.toNat ∉ handlerOpcodes →
    step s = .next (faulted { s with ir := s.mem.read s.pc.toNat } .unsupportedInstruction
      (some (Int.ofNat (s.mem.read s.pc.toNat).toNat)))) ∧
  (∀ s t : State, s.run = .running → step s = .next t → inFault t .unsupportedInstruction →
    s.pc.toNat ≤ 255 ∧ aluBit (s.mem.read s.pc.toNat) = false ∧ s.mem.read s.pc.toNat ∉ handlerOpcodes) ∧
  (allBytes.filter fun ir => !aluBit ir && !handlerOpcodes.contains ir).length = 118 ∧
  aluBit 0x00#8 = false ∧ 0x00#8 ∉ handlerOpcodes

/-- 116 opcode bytes raise `UnsupportedALUOperation(ir)` at decode, and only they do (60_exceptions.md section 1; which
twelve bytes are ALU operations is the spec's decision D1, log 1, and that decode comes before the operand reads is D4,
log 12). -/
def Obligations.UnsupportedAluOpcodesFault : Prop :=
  (∀ s : State, s.run = .running → s.pc.toNat ≤ 255 →
    aluBit (s.mem.read s.pc.toNat) = true → s.mem.read s.pc.toNat ∉ aluOpcodes →
    step s = .next (faulted { s with ir := s.mem.read s.pc.toNat } .unsupportedALUOperation
      (some (Int.ofNat (s.mem.read s.pc.toNat).toNat)))) ∧
  (∀ s t : State, s.run = .running → step s = .next t → inFault t .unsupportedALUOperation →
    s.pc.toNat ≤ 255 ∧ aluBit (s.mem.read s.pc.toNat) = true ∧ s.mem.read s.pc.toNat ∉ aluOpcodes) ∧
  (allBytes.filter fun ir => aluBit ir && !aluOpcodes.contains ir).length = 116

/-- A supported opcode whose operand bytes would lie above address 255 raises `OutOfBounds(256)` with the opcode in IR,
at the operand a fetch (PC = 255) or the operand b fetch (PC = 254) (40_engine_cycle.md section 2; the count of reads is
the spec's decision D3, and that PC 256 faults is D2, log 12). -/
def Obligations.OperandFetchPastTheTopFaults : Prop :=
  ∀ (s : State) (m : Mnemonic), s.run = .running → s.pc.toNat ≤ 255 →
    decodeOpcode (s.mem.read s.pc.toNat) = .ok m →
    255 < s.pc.toNat + operandCount (s.mem.read s.pc.toNat) →
    step s = .next (faulted { s with ir := s.mem.read s.pc.toNat } .outOfBounds (some 256))

/-- The advance (40_engine_cycle.md section 2): when the opcode byte at PC, as it is BEFORE the step, has `C = 0` and
the step raised nothing, PC moves by `AA + 1` with no reduction; and a step that raised leaves PC where it was (that
the sum is not reduced is the spec's decision D2, that a raise leaves PC is D6, log 12). -/
def Obligations.AdvanceByTheFetchedOperandCount : Prop :=
  ∀ s t : State, s.run = .running → step s = .next t →
    (t.notFaulted → setsPcBit (s.mem.read s.pc.toNat) = false →
      t.pc.toNat = s.pc.toNat + operandCount (s.mem.read s.pc.toNat) + 1) ∧
    (∀ r, t.run = .faulted r → t.pc = s.pc)

/-! ## ALU operations -/

/-- ADD, SUB and MUL modulo 256, whole: encoding, result, flags and everything else unchanged, both register faults,
`PC <- p + 3` (41_alu.md section 2; the opcode numbers are the spec's decision D1, log 1). -/
def Obligations.AddSubMulRules : Prop :=
  ∀ a b : Byte,
    twoOperandRule (.add a b) 0xA0#8 a b (fun u v => (u + v) % 256) ∧
    twoOperandRule (.sub a b) 0xA1#8 a b (fun u v => if v ≤ u then u - v else u + 256 - v) ∧
    twoOperandRule (.mul a b) 0xA2#8 a b (fun u v => u * v % 256)

/-- AND, OR and XOR bit by bit, whole: encoding, every result bit, everything else unchanged, both register faults,
`PC <- p + 3` (41_alu.md section 2; the opcode numbers are the spec's decision D1, log 1). -/
def Obligations.AndOrXorRules : Prop :=
  ∀ (a b : Byte) (i : Instr) (opcode : Byte) (bit : Bool → Bool → Bool),
    ((i, opcode) = (Instr.and a b, 0xA8#8) ∧ bit = Bool.and ∨
     (i, opcode) = (Instr.or a b, 0xAA#8) ∧ bit = Bool.or ∨
     (i, opcode) = (Instr.xor a b, 0xAB#8) ∧ bit = Bool.xor) →
    encode i = [opcode, a, b] ∧ ∀ s : State,
      (∀ ra rb : RegIndex, a.toNat = ra.val → b.toNat = rb.val → ∃ result : Byte,
        exec i s = .next { s with regs := put s.regs ra result, pc := pcPlus s 3 } ∧
        ∀ k, k < 8 → result.getLsbD k = bit ((s.reg ra).getLsbD k) ((s.reg rb).getLsbD k)) ∧
      (7 < a.toNat → raisesInvalidRegister i s a) ∧
      (a.toNat ≤ 7 → 7 < b.toNat → raisesInvalidRegister i s b)

/-- DIV and MOD give the unsigned floor quotient and the remainder, and a zero divisor raises `DivisionByZero` with
nothing written (41_alu.md section 2; that the quotient is the floor is the spec's decision D19, log 12; the opcode
numbers are its decision D1, log 1). -/
def Obligations.DivModResults : Prop :=
  ∀ a b : Byte,
    divisionRule (.div a b) 0xA3#8 a b (fun u v => u / v) ∧
    divisionRule (.mod a b) 0xA4#8 a b (fun u v => u % v)

/-- 60_exceptions.md R225: `DivisionByZero` is raised by DIV and MOD, and by no other instruction, when the divisor is
0, after both register indices have passed their check and before anything is written. -/
def Obligations.DivisionByZeroExactly : Prop :=
  ∀ (i : Instr) (s t : State), s.notFaulted → exec i s = .next t →
    (inFault t .divisionByZero ↔
      ∃ (a b : Byte) (rb : RegIndex), (i = .div a b ∨ i = .mod a b) ∧ a.toNat ≤ 7 ∧ b.toNat = rb.val ∧
        s.reg rb = 0#8) ∧
    (inFault t .divisionByZero → t = faulted s .divisionByZero none)

/-- NOT writes `255 - x[a]`, which is every bit inverted (41_alu.md section 2; the meaning of the name is the spec's
decision D22, log 12; the opcode number is its decision D1, log 1). -/
def Obligations.NotResult : Prop :=
  ∀ (a : Byte) (s : State),
    encode (.not a) = [0x69#8, a] ∧
    (∀ ra : RegIndex, a.toNat = ra.val → ∃ result : Byte,
      exec (.not a) s = .next { s with regs := put s.regs ra result, pc := pcPlus s 2 } ∧
      result.toNat = 255 - (s.reg ra).toNat ∧ ∀ k, k < 8 → result.getLsbD k = !(s.reg ra).getLsbD k) ∧
    (7 < a.toNat → raisesInvalidRegister (.not a) s a)

/-- SHL and SHR are logical shifts by the whole of `x[b]`, bit by bit: bit `k` of the result is bit `k - v` or `k + v`
of the value, or 0 where there is none, so a count of 8 or more gives 0 (41_alu.md section 2; the shift law is the
spec's decision D20, log 12; the opcode numbers are its decision D1, log 1). -/
def Obligations.ShiftResults : Prop :=
  ∀ (a b : Byte) (s : State),
    encode (.shl a b) = [0xAC#8, a, b] ∧ encode (.shr a b) = [0xAD#8, a, b] ∧
    (∀ ra rb : RegIndex, a.toNat = ra.val → b.toNat = rb.val → ∃ left right : Byte,
      exec (.shl a b) s = .next { s with regs := put s.regs ra left, pc := pcPlus s 3 } ∧
      exec (.shr a b) s = .next { s with regs := put s.regs ra right, pc := pcPlus s 3 } ∧
      (∀ k, k < 8 → left.getLsbD k =
        (decide ((s.reg rb).toNat ≤ k) && (s.reg ra).getLsbD (k - (s.reg rb).toNat))) ∧
      (∀ k, k < 8 → right.getLsbD k = (s.reg ra).getLsbD (k + (s.reg rb).toNat)) ∧
      (8 ≤ (s.reg rb).toNat → left = 0#8 ∧ right = 0#8)) ∧
    (7 < a.toNat → raisesInvalidRegister (.shl a b) s a ∧ raisesInvalidRegister (.shr a b) s a) ∧
    (a.toNat ≤ 7 → 7 < b.toNat → raisesInvalidRegister (.shl a b) s b ∧ raisesInvalidRegister (.shr a b) s b)

/-- CMP recomputes all three flags, exactly one of them set, by an unsigned comparison, and writes nothing else
(41_alu.md section 2; that the comparison is unsigned is the spec's decision D21, log 12; the opcode number
is its decision D1, log 1). -/
def Obligations.CompareResult : Prop :=
  ∀ (a b : Byte) (s : State),
    encode (.cmp a b) = [0xA7#8, a, b] ∧
    (∀ ra rb : RegIndex, a.toNat = ra.val → b.toNat = rb.val → ∃ f : Flags,
      exec (.cmp a b) s = .next { s with fl := f, pc := pcPlus s 3 } ∧
      (f.e = true ↔ s.reg ra = s.reg rb) ∧
      (f.l = true ↔ (s.reg ra).toNat < (s.reg rb).toNat) ∧
      (f.g = true ↔ (s.reg rb).toNat < (s.reg ra).toNat)) ∧
    (7 < a.toNat → raisesInvalidRegister (.cmp a b) s a) ∧
    (a.toNat ≤ 7 → 7 < b.toNat → raisesInvalidRegister (.cmp a b) s b)

/-- 41_alu.md R154: of the ALU operations only CMP writes FL, the other eleven leave it unchanged whatever their
result, and CMP writes no register. -/
def Obligations.OnlyCompareWritesFlags : Prop :=
  (∀ (i : Instr) (a : Byte) (s t : State), aluDestination i = some a → exec i s = .next t → t.fl = s.fl) ∧
  (∀ (a b : Byte) (s t : State), exec (.cmp a b) s = .next t → t.regs = s.regs) ∧
  (∃ (a b : Byte) (s t : State), exec (.cmp a b) s = .next t ∧ t.fl ≠ s.fl)

/-- 10_state.md R31: FL is written only by CMP, which writes all three bits, and read only by JEQ and JNE, which read
`E` only: with other flags, every other instruction does the same and leaves those flags, and JEQ and JNE do the same
whenever `E` is the same. -/
def Obligations.FlagsWrittenByCompareReadAsEqual : Prop :=
  (∀ (i : Instr) (s t : State), exec i s = .next t → t.fl ≠ s.fl → ∃ a b, i = .cmp a b) ∧
  (∀ (i : Instr) (s : State) (f : Flags), (∀ a b, i ≠ .cmp a b) → (∀ a, i ≠ .jeq a) → (∀ a, i ≠ .jne a) →
    exec i { s with fl := f } = withFlags f (exec i s)) ∧
  (∀ (a : Byte) (s : State) (f : Flags), f.e = s.fl.e →
    exec (.jeq a) { s with fl := f } = withFlags f (exec (.jeq a) s) ∧
    exec (.jne a) { s with fl := f } = withFlags f (exec (.jne a) s)) ∧
  (∀ (a b : Byte) (s t : State) (f : Flags), a.toNat ≤ 7 → b.toNat ≤ 7 →
    exec (.cmp a b) s = .next t → exec (.cmp a b) { s with fl := f } = .next t)

/-- One register named twice: both values are read before the result is written (41_alu.md section 1, which derives
these results from the operations of section 2; a count of 8 or more giving 0 is the spec's decision D20, and the floor
quotient its decision D19, log 12). -/
def Obligations.SameRegisterTwice : Prop :=
  ∀ (a : Byte) (r : RegIndex) (s : State), a.toNat = r.val →
    let u := (s.reg r).toNat
    let done (v : Byte) : Host.Outcome State Fault Refusal :=
      .next { s with regs := put s.regs r v, pc := pcPlus s 3 }
    exec (.add a a) s = done (BitVec.ofNat 8 (2 * u)) ∧
    exec (.sub a a) s = done 0#8 ∧
    exec (.mul a a) s = done (BitVec.ofNat 8 (u ^ 2)) ∧
    exec (.div a a) s = (if u = 0 then .next (faulted s .divisionByZero none) else done 1#8) ∧
    exec (.mod a a) s = (if u = 0 then .next (faulted s .divisionByZero none) else done 0#8) ∧
    exec (.and a a) s = done (s.reg r) ∧
    exec (.or a a) s = done (s.reg r) ∧
    exec (.xor a a) s = done 0#8 ∧
    exec (.shl a a) s = done (if u < 8 then BitVec.ofNat 8 (u * 2 ^ u) else 0#8) ∧
    exec (.shr a a) s = done (if u < 8 then BitVec.ofNat 8 (u / 2 ^ u) else 0#8) ∧
    exec (.cmp a a) s = .next { s with fl := ⟨false, false, true⟩, pc := pcPlus s 3 }

/-! ## Data movement and output -/

/-- 42_data_movement_output.md R170: LDI, whole: encoding, `x[a] <- b` for every byte and register (x[7] too), the fault
of operand a only, and the document's property that LDI then PRN outputs exactly the value. -/
def Obligations.LoadImmediateRule : Prop :=
  ∀ (a imm : Byte) (s : State),
    encode (.ldi a imm) = [0x82#8, a, imm] ∧
    (∀ ra : RegIndex, a.toNat = ra.val →
      exec (.ldi a imm) s = .next { s with regs := put s.regs ra imm, pc := pcPlus s 3 } ∧
      ∃ t u, exec (.ldi a imm) s = .next t ∧ exec (.prn a) t = .next u ∧ u.out = s.out ++ [imm]) ∧
    (7 < a.toNat → raisesInvalidRegister (.ldi a imm) s a)

/-- PRN, whole: encoding, the value appended to OUT and given at the output port, rendered as its decimal numeral and a
line feed, nothing else written; on the fault nothing is emitted (42_data_movement_output.md; the output list and its
rendering are the spec's decision D25, and the port is the interface of its decision D26, log 12). -/
def Obligations.PrintRule : Prop :=
  ∀ (a : Byte) (s : State),
    encode (.prn a) = [0x47#8, a] ∧
    (∀ ra : RegIndex, a.toNat = ra.val → ∃ t,
      exec (.prn a) s = .next t ∧
      t = { s with out := s.out ++ [s.reg ra], pc := pcPlus s 2 } ∧
      outPort s t = some (s.reg ra) ∧
      t.rendered = s.rendered ++ (Nat.toDigits 10 (s.reg ra).toNat ++ ['\n'])) ∧
    (7 < a.toNat → raisesInvalidRegister (.prn a) s a)

/-- OUT is append only, one instruction appends at most one value, only PRN appends, and nothing reads OUT: with other
earlier output every instruction does the same (10_state.md section 7, whose list model of the sink is the spec's
decision D25, log 12). -/
def Obligations.OutputIsAppendedByPrintAndNeverRead : Prop :=
  ∀ (i : Instr) (s t : State), exec i s = .next t → ∃ emitted : List Byte,
    t.out = s.out ++ emitted ∧ emitted.length ≤ 1 ∧ (emitted ≠ [] → ∃ a, i = .prn a) ∧
    ∀ earlier, exec i { s with out := earlier } = .next { t with out := earlier ++ emitted }

/-! ## Stack -/

/-- PUSH decrements SP, then stores `x[a]`, read after the decrement, at the new SP; at `SP = 0` it raises
`OutOfBounds(-1)` with nothing written (43_stack.md section 2; the fault is the spec's decision D10, the value of
`PUSH R7` its decision D12, log 12; the opcode number is its decision D1, log 1). -/
def Obligations.PushResult : Prop :=
  ∀ (a : Byte) (s : State),
    encode (.push a) = [0x45#8, a] ∧
    (∀ ra : RegIndex, a.toNat = ra.val →
      (s.reg 7 ≠ 0#8 → exec (.push a) s = .next { s with
        regs := put s.regs 7 (s.reg 7 - 1#8),
        mem := s.mem.write ((s.reg 7).toNat - 1) (if ra = 7 then s.reg 7 - 1#8 else s.reg ra),
        pc := pcPlus s 2 }) ∧
      (s.reg 7 = 0#8 → exec (.push a) s = .next (faulted s .outOfBounds (some (-1))))) ∧
    (7 < a.toNat → raisesInvalidRegister (.push a) s a)

/-- POP loads the byte at SP and increments SP; `POP R7` ends with that byte plus 1; `SP = 0xF4` raises `EmptyStack`,
and a new SP of 256 raises `OutOfBounds(256)`, with nothing written (43_stack.md section 2; the faults are the spec's
decisions D9 and D11, the value of `POP R7` its decision D12, log 12; the opcode number is its decision D1, log 1). -/
def Obligations.PopResult : Prop :=
  ∀ (a : Byte) (s : State),
    encode (.pop a) = [0x46#8, a] ∧
    (∀ ra : RegIndex, a.toNat = ra.val →
      (s.reg 7 = 0xF4#8 → exec (.pop a) s = .next (faulted s .emptyStack none)) ∧
      (s.reg 7 ≠ 0xF4#8 → ra ≠ 7 → s.reg 7 ≠ 0xFF#8 → exec (.pop a) s = .next { s with
        regs := put (put s.regs ra (s.mem.read (s.reg 7).toNat)) 7 (s.reg 7 + 1#8), pc := pcPlus s 2 }) ∧
      (s.reg 7 ≠ 0xF4#8 → ra ≠ 7 → s.reg 7 = 0xFF#8 →
        exec (.pop a) s = .next (faulted s .outOfBounds (some 256))) ∧
      (s.reg 7 ≠ 0xF4#8 → ra = 7 → s.mem.read (s.reg 7).toNat ≠ 0xFF#8 → exec (.pop a) s = .next { s with
        regs := put s.regs 7 (s.mem.read (s.reg 7).toNat + 1#8), pc := pcPlus s 2 }) ∧
      (s.reg 7 ≠ 0xF4#8 → ra = 7 → s.mem.read (s.reg 7).toNat = 0xFF#8 →
        exec (.pop a) s = .next (faulted s .outOfBounds (some 256)))) ∧
    (7 < a.toNat → raisesInvalidRegister (.pop a) s a)

/-- PUSH r then POP r' restores the value into r' and SP to what it was, for r and r' other than x[7] and every SP at
which neither faults (43_stack.md section 2; the document's property, with the limits 95_test_vectors.md E2 gives it,
which rest on decisions D9, D10 and D12, log 12). The memory is in its canonical form, log 7, which every step keeps. -/
def Obligations.PushThenPopRestores : Prop :=
  ∀ (a b : Byte) (ra rb : RegIndex) (s : State), s.mem.wf → a.toNat = ra.val → b.toNat = rb.val →
    ra ≠ 7 → rb ≠ 7 → s.reg 7 ≠ 0#8 → s.reg 7 ≠ 0xF5#8 →
    ∃ t u, exec (.push a) s = .next t ∧ exec (.pop b) t = .next u ∧
      u.reg rb = s.reg ra ∧ u.reg 7 = s.reg 7 ∧ ∀ r : RegIndex, r ≠ rb → u.reg r = s.reg r

/-! ## Control transfer -/

/-- CALL stores the return address `p + 2`, modulo 256, at the decremented SP and jumps to `x[a]` read after the
decrement; at `SP = 0` it raises `OutOfBounds(-1)` with nothing written (44_control_flow.md section 2; decisions D10,
D12 and D13, log 12; the opcode number is decision D1, log 1). -/
def Obligations.CallResult : Prop :=
  ∀ (a : Byte) (s : State),
    encode (.call a) = [0x50#8, a] ∧
    (∀ ra : RegIndex, a.toNat = ra.val →
      (s.reg 7 ≠ 0#8 → exec (.call a) s = .next { s with
        regs := put s.regs 7 (s.reg 7 - 1#8),
        mem := s.mem.write ((s.reg 7).toNat - 1) (BitVec.ofNat 8 ((s.pc.toNat + 2) % 256)),
        pc := BitVec.ofNat 9 (if ra = 7 then (s.reg 7).toNat - 1 else (s.reg ra).toNat) }) ∧
      (s.reg 7 = 0#8 → exec (.call a) s = .next (faulted s .outOfBounds (some (-1))))) ∧
    (7 < a.toNat → raisesInvalidRegister (.call a) s a)

/-- RET pops one byte into PC; `SP = 0xF4` raises `EmptyStack` and `SP = 0xFF` raises `OutOfBounds(256)`, with nothing
written (44_control_flow.md section 2; the faults are the spec's decisions D9 and D11, log 12; the opcode number is
its decision D1, log 1). -/
def Obligations.ReturnResult : Prop :=
  ∀ s : State,
    encode .ret = [0x11#8] ∧
    (s.reg 7 = 0xF4#8 → exec .ret s = .next (faulted s .emptyStack none)) ∧
    (s.reg 7 = 0xFF#8 → exec .ret s = .next (faulted s .outOfBounds (some 256))) ∧
    (s.reg 7 ≠ 0xF4#8 → s.reg 7 ≠ 0xFF#8 → exec .ret s = .next { s with
      regs := put s.regs 7 (s.reg 7 + 1#8),
      pc := BitVec.ofNat 9 (s.mem.read (s.reg 7).toNat).toNat })

/-- A RET that finds SP and the pushed cell as a CALL left them resumes at the address after the CALL, `p + 2` modulo
256, with SP as it was before the CALL (44_control_flow.md section 2, the document's property; for a CALL at 254 the
return address 256 is stored as 0, the spec's decision D13). The call itself is made at an SP where neither it nor the
return faults, which decisions D9 and D10, log 12, decide. -/
def Obligations.ReturnResumesAfterTheCall : Prop :=
  ∀ (a : Byte) (ra : RegIndex) (s : State), s.mem.wf → a.toNat = ra.val → s.reg 7 ≠ 0#8 → s.reg 7 ≠ 0xF5#8 →
    ∃ t, exec (.call a) s = .next t ∧
      ∀ u : State, u.reg 7 = t.reg 7 → u.mem.read (u.reg 7).toNat = t.mem.read (t.reg 7).toNat →
        ∃ v, exec .ret u = .next v ∧ v.pc.toNat = (s.pc.toNat + 2) % 256 ∧ v.reg 7 = s.reg 7

/-- JMP, whole: encoding, `pc <- x[a]` and nothing else written, the one fault (44_control_flow.md section 2; the opcode
number is the spec's decision D1, log 1). -/
def Obligations.JumpRule : Prop :=
  ∀ (a : Byte) (s : State),
    encode (.jmp a) = [0x54#8, a] ∧
    (∀ ra : RegIndex, a.toNat = ra.val → exec (.jmp a) s = .next { s with pc := BitVec.ofNat 9 (s.reg ra).toNat }) ∧
    (7 < a.toNat → raisesInvalidRegister (.jmp a) s a)

/-- JEQ jumps exactly when `E` is set and JNE exactly when it is clear; otherwise `PC <- p + 2`; nothing else is
written, and the operand is checked whether or not the jump is taken (44_control_flow.md section 2; decisions D5 and
D28, log 12; the opcode numbers are decision D1, log 1). -/
def Obligations.ConditionalJumpResults : Prop :=
  ∀ (a : Byte) (s : State),
    encode (.jeq a) = [0x55#8, a] ∧ encode (.jne a) = [0x56#8, a] ∧
    (∀ ra : RegIndex, a.toNat = ra.val →
      exec (.jeq a) s = .next { s with
        pc := if s.fl.e = true then BitVec.ofNat 9 (s.reg ra).toNat else pcPlus s 2 } ∧
      exec (.jne a) s = .next { s with
        pc := if s.fl.e = false then BitVec.ofNat 9 (s.reg ra).toNat else pcPlus s 2 }) ∧
    (7 < a.toNat → raisesInvalidRegister (.jeq a) s a ∧ raisesInvalidRegister (.jne a) s a)

/-- CMP then JEQ jumps if and only if the two values are equal, and CMP then JNE if and only if they differ
(44_control_flow.md section 2, the document's properties; the fall-through address is the spec's decision D28, log
12). -/
def Obligations.CompareThenConditionalJump : Prop :=
  ∀ (a b c : Byte) (ra rb rc : RegIndex) (s : State), a.toNat = ra.val → b.toNat = rb.val → c.toNat = rc.val →
    ∃ t u v, exec (.cmp a b) s = .next t ∧ exec (.jeq c) t = .next u ∧ exec (.jne c) t = .next v ∧
      u.pc = (if s.reg ra = s.reg rb then BitVec.ofNat 9 (s.reg rc).toNat else pcPlus s 5) ∧
      v.pc = (if s.reg ra ≠ s.reg rb then BitVec.ofNat 9 (s.reg rc).toNat else pcPlus s 5)

/-! ## System -/

/-- HLT halts and PC moves past it; nothing else is written, and it has no fault (45_system.md; that PC advances is the
spec's decision D8, log 12). -/
def Obligations.HaltResult : Prop :=
  ∀ s : State, encode .hlt = [0x01#8] ∧ exec .hlt s = .next { s with run := .halted, pc := pcPlus s 1 }

/-- `Halted` is entered exclusively by HLT: a step ends halted exactly when the byte it fetched is `0x01`
(40_engine_cycle.md section 1, 45_system.md; the three-valued RUN is the spec's decision D24, log 12). -/
def Obligations.HaltedOnlyByHalt : Prop :=
  ∀ s t : State, s.run = .running → step s = .next t →
    (t.run = .halted ↔ s.pc.toNat ≤ 255 ∧ s.mem.read s.pc.toNat = 0x01#8)

/-! ## Frames -/

/-- The frame of the eleven ALU operations that write a register, completed or raising: every register but the
destination, FL, IR, OUT and every byte of memory are as before (41_alu.md section 1). -/
def Obligations.AluFrame : Prop :=
  ∀ (i : Instr) (a : Byte) (s t : State), aluDestination i = some a → exec i s = .next t →
    (∀ r : RegIndex, r.val ≠ a.toNat → t.reg r = s.reg r) ∧ t.fl = s.fl ∧ t.ir = s.ir ∧ t.out = s.out ∧
    (∀ addr : Nat, t.mem.read addr = s.mem.read addr) ∧ (t.run = s.run ∨ ∃ r, t.run = .faulted r)

/-- The frame of the instructions that neither write memory nor read the stack, other than the ALU's eleven: LDI
writes only its register and PC, CMP only FL and PC, PRN only OUT and PC, JMP, JEQ and JNE only PC, and HLT only RUN
and PC. And a raise, of any instruction, writes only RUN (decision D6, log 12) (42_data_movement_output.md,
44_control_flow.md section 2, 45_system.md, 41_alu.md section 2). -/
def Obligations.RegisterOnlyFrame : Prop :=
  ∀ (i : Instr) (s t : State), exec i s = .next t →
    (∀ a imm, i = .ldi a imm → (∀ r : RegIndex, r.val ≠ a.toNat → t.reg r = s.reg r) ∧ t.fl = s.fl ∧ t.out = s.out ∧
      (t.run = s.run ∨ ∃ r, t.run = .faulted r)) ∧
    (∀ a b, i = .cmp a b → t.regs = s.regs ∧ t.out = s.out ∧ (t.run = s.run ∨ ∃ r, t.run = .faulted r)) ∧
    (∀ a, i = .prn a → t.regs = s.regs ∧ t.fl = s.fl ∧ (t.run = s.run ∨ ∃ r, t.run = .faulted r)) ∧
    (∀ a, (i = .jmp a ∨ i = .jeq a ∨ i = .jne a) → t.regs = s.regs ∧ t.fl = s.fl ∧ t.out = s.out ∧
      (t.run = s.run ∨ ∃ r, t.run = .faulted r)) ∧
    (i = .hlt → t.regs = s.regs ∧ t.fl = s.fl ∧ t.out = s.out ∧ t.run = .halted) ∧
    (s.notFaulted → ∀ r, t.run = .faulted r → t = faulted s r.kind r.info) ∧
    t.ir = s.ir ∧
    ((∃ a imm, i = .ldi a imm) ∨ (∃ a b, i = .cmp a b) ∨ (∃ a, i = .prn a ∨ i = .jmp a ∨ i = .jeq a ∨ i = .jne a) ∨
        i = .hlt → ∀ addr : Nat, t.mem.read addr = s.mem.read addr)

/-- The frame of the stack instructions, completed or raising: PUSH and CALL change no register but `x[7]` and no byte
but the one at the address `pushAddress` computes from the state they start in; POP changes no register but its
destination and `x[7]`, RET none but `x[7]`, and neither changes memory; FL, IR and OUT are as before (43_stack.md
section 2, 44_control_flow.md section 2, 20_memory.md section 1). -/
def Obligations.StackFrame : Prop :=
  ∀ (i : Instr) (a : Byte) (s t : State), exec i s = .next t →
    (i = .push a ∨ i = .call a →
      (∀ r : RegIndex, r ≠ 7 → t.reg r = s.reg r) ∧
      (∀ w, pushAddress s = .ok w → ∀ addr : Nat, addr ≠ w.toNat → t.mem.read addr = s.mem.read addr) ∧
      (∀ c, pushAddress s = .error c → ∀ addr : Nat, t.mem.read addr = s.mem.read addr)) ∧
    (i = .pop a → (∀ r : RegIndex, r ≠ 7 → r.val ≠ a.toNat → t.reg r = s.reg r) ∧
      ∀ addr : Nat, t.mem.read addr = s.mem.read addr) ∧
    (i = .ret → (∀ r : RegIndex, r ≠ 7 → t.reg r = s.reg r) ∧ ∀ addr : Nat, t.mem.read addr = s.mem.read addr) ∧
    (i = .push a ∨ i = .pop a ∨ i = .call a ∨ i = .ret →
      t.fl = s.fl ∧ t.ir = s.ir ∧ t.out = s.out ∧ (t.run = s.run ∨ ∃ r, t.run = .faulted r))

/-- Who writes memory, over whole steps: a step changes no byte unless the opcode it fetched is PUSH's or CALL's, and
then none but the one at `SP - 1` (20_memory.md section 1; the two opcode numbers are the spec's decision D1, log 1). -/
def Obligations.OnlyPushAndCallWriteMemory : Prop :=
  ∀ s t : State, s.run = .running → step s = .next t → ∀ addr : Nat,
    t.mem.read addr ≠ s.mem.read addr →
      (s.mem.read s.pc.toNat = 0x45#8 ∨ s.mem.read s.pc.toNat = 0x50#8) ∧ addr + 1 = (s.reg 7).toNat

/-- A byte that a PUSH or a CALL stored is what the very next step fetches, if PC is there: the register's value after
the decrement, or the return address modulo 256 (which byte is stored: 43_stack.md section 2 and 44_control_flow.md
section 2, with decisions D12 and D13, log 12; that it is fetched: 20_memory.md section 5, which derives it). The memory
is in its canonical form, log 7, which every step keeps. -/
def Obligations.StoredByteIsFetchedNext : Prop :=
  ∀ (a : Byte) (ra : RegIndex) (s t u : State) (w : Byte), s.mem.wf → s.run = .running →
    a.toNat = ra.val → pushAddress s = .ok w → t.pc.toNat = w.toNat → step t = .next u →
    (exec (.push a) s = .next t → u.ir = t.reg ra) ∧
    (exec (.call a) s = .next t → u.ir = BitVec.ofNat 8 (s.pc.toNat + 2))

/-! ## Faults -/

/-- Faults are precise: a step that raises leaves registers, FL, memory, PC and OUT as they were, IR with the fetched
opcode when the fetch succeeded and with its old value when it did not, and a record of the step's PC and of that IR
(60_exceptions.md section 3; decisions D6, D7 and D33, log 12). -/
def Obligations.FaultsArePrecise : Prop :=
  ∀ (s t : State) (r : FaultRecord), step s = .next t → t.run = .faulted r →
    t.regs = s.regs ∧ t.fl = s.fl ∧ t.mem = s.mem ∧ t.pc = s.pc ∧ t.out = s.out ∧
    t.ir = (if s.pc.toNat ≤ 255 then s.mem.read s.pc.toNat else s.ir) ∧
    r.pc = s.pc ∧ r.ir = t.ir

/-- `InvalidRegister` is raised exactly by an instruction with a register operand above 7, taken jump or not, whatever
the state; LDI's immediate is never checked (60_exceptions.md section 1; decision D5, log 12). -/
def Obligations.InvalidRegisterExactly : Prop :=
  ∀ (i : Instr) (s t : State), s.notFaulted → exec i s = .next t →
    (inFault t .invalidRegister ↔ ¬ WellFormed i)

/-- `EmptyStack` is raised exactly by POP (of a register 0 to 7) and RET, at `SP = 0xF4` (60_exceptions.md section 1;
decision D9, log 12). -/
def Obligations.EmptyStackExactly : Prop :=
  ∀ (i : Instr) (s t : State), s.notFaulted → exec i s = .next t →
    (inFault t .emptyStack ↔ ((∃ a : Byte, i = .pop a ∧ a.toNat ≤ 7) ∨ i = .ret) ∧ s.reg 7 = 0xF4#8)

/-- Every instruction of the table answers a next state in every state: none stops and none is refused, whatever its
operands (40_engine_cycle.md section 2; a raise is a next state, log 2). -/
def Obligations.ExecAlwaysAnswersANextState : Prop :=
  ∀ (i : Instr) (s : State), ∃ t, exec i s = .next t ∧
    (t.run = s.run ∨ t.run = .halted ∨ ∃ kind info, t = faulted s kind info)

/-- The `fault_kind` port shows 0 exactly when no fault stands, and the codes 1 to 6 in the order of the taxonomy
otherwise; the suggested exit status is 0 for a halted core and that code for a faulted one (60_exceptions.md sections 1
and 3; the numbers are the spec's decisions D23 and D31, log 12). -/
def Obligations.FaultPortShowsTheKind : Prop :=
  (∀ s : State, s.faultKindPort = 0#3 ↔ s.notFaulted) ∧
  (∀ (s : State) (info : Option Int),
    (faulted s .outOfBounds info).faultKindPort = 1#3 ∧
    (faulted s .invalidRegister info).faultKindPort = 2#3 ∧
    (faulted s .unsupportedInstruction info).faultKindPort = 3#3 ∧
    (faulted s .unsupportedALUOperation info).faultKindPort = 4#3 ∧
    (faulted s .divisionByZero info).faultKindPort = 5#3 ∧
    (faulted s .emptyStack info).faultKindPort = 6#3) ∧
  (∀ s : State, s.endedWell → s.exitStatus = some 0) ∧
  (∀ (s : State) (r : FaultRecord), s.run = .faulted r → s.exitStatus = some s.faultKindPort.toNat)

/-- IR is context only: no instruction reads it, and none writes it. With another IR an instruction that raises nothing
does the same (10_state.md section 4). -/
def Obligations.InstructionRegisterIsContextOnly : Prop :=
  ∀ (i : Instr) (s t : State) (v : Byte), exec i s = .next t →
    t.ir = s.ir ∧ (t.notFaulted → exec i { s with ir := v } = .next { t with ir := v })

/-! ## Memory -/

/-- Reading and writing fail with `OutOfBounds(addr)` outside 0 to 255; inside, a read gives the byte of the cell, and a
write stores the value modulo 256 at its address and changes nothing else (20_memory.md section 1). The memory is in its
canonical form, which a write keeps: that form is the model's choice (log 7). -/
def Obligations.MemoryReadAndWritePrimitives : Prop :=
  ∀ (s : State) (addr v : Int), s.mem.wf →
    (addr < 0 ∨ 255 < addr →
      memRead s addr = .error (.outOfBounds addr) ∧ memWrite s addr v = .error (.outOfBounds addr)) ∧
    (0 ≤ addr → addr ≤ 255 → memRead s addr = .ok (s.mem.read addr.toNat) ∧
      ∃ t stored, memWrite s addr v = .ok t ∧ t.mem.wf ∧ memRead t addr = .ok stored ∧
        Int.ofNat stored.toNat = v % 256 ∧
        (∀ other, other ≠ addr → memRead t other = memRead s other) ∧
        t = { s with mem := t.mem })

/-- The canonical form is one: two canonical memories that read alike at every address are equal data (the form is the
model's choice, log 7; 20_memory.md section 1 gives the 256 cells it stands for). -/
def Obligations.EqualReadsAreEqualMemories : Prop :=
  ∀ m n : Memory, m.wf → n.wf → (∀ addr, addr < 256 → m.read addr = n.read addr) → m = n

/-! ## Reset and the invariant -/

/-- Reset with a program of at most 256 bytes: PC 0, SP 0xF4, running, no output, the program at addresses 0 on, and
the rest of memory, `x[0]` to `x[6]`, FL and IR zero; a longer image is refused by name; reset in any state gives the
same (70_reset_and_hazards.md section 1; the zeros are the spec's decisions D15 to D18, log 4 to 7; that one action of
the host loads the program, in any state, with nothing surviving, is its decision D32, log 3 and log 12; the refusal is
log 9). -/
def Obligations.ResetLoadsTheProgram : Prop :=
  ∀ (program : List Byte) (before : State),
    (program.length ≤ 256 → ∃ s, hostReset program before = .next s ∧
      s.pc = 0#9 ∧ s.reg 7 = 0xF4#8 ∧ s.run = .running ∧ s.out = [] ∧
      (∀ k (h : k < program.length), s.mem.read k = program[k]) ∧
      (∀ k, program.length ≤ k → k ≤ 255 → s.mem.read k = 0x00#8) ∧
      (∀ r : RegIndex, r ≠ 7 → s.reg r = 0x00#8) ∧ s.fl.toBits = 0b000#3 ∧ s.ir = 0x00#8) ∧
    (256 < program.length → hostReset program before = .refused (.imageTooLong program.length)) ∧
    (program = [] → hostReset program before = .next State.reset)

/-- The invariant holds at reset, whatever the program (70_reset_and_hazards.md section 1, 10_state.md section 9; the
flags at reset are the spec's decision D15, log 5, and the canonical form is the model's choice, log 7). -/
def Obligations.ResetSatisfiesTheInvariant : Prop :=
  Inv State.reset ∧ ∀ (program : List Byte) (s : State), resetWith program = .next s → Inv s

/-- Every step keeps the invariant, from every state that has it: memory stays canonical, PC stays 0 to 256, FL stays
one of its four values, and a fault record agrees with the state and records what its kind records, so `OutOfBounds`
only ever reports -1 or 256; the canonical form is the model's choice, log 7, and the range of PC the spec's decision
D2, log 12 (10_state.md section 5, 40_engine_cycle.md section 4, 60_exceptions.md sections 1 and 3). -/
def Obligations.StepKeepsTheInvariant : Prop :=
  ∀ s t : State, Inv s → step s = .next t → Inv t
end

