-- ==== Sys2Proof/Laws/Decode.lean ====
section
/-! SUPPORT. One spec lemma for each part of the decoder: the opcode map has no two equal rows, the opcode lookup, and
the operand count of every opcode. -/

namespace Sys2Proof

/-- Every operation is found at its own opcode byte, so no two rows of the map share one (30_encoding.md R86, R89). -/
@[simp] theorem decodeOpcode_opcode (m : Mnemonic) : decodeOpcode m.opcode = .ok m := by
  cases m <;> decide

theorem opcode_injective {m n : Mnemonic} (h : m.opcode = n.opcode) : m = n := by
  have hm := decodeOpcode_opcode m
  rw [h, decodeOpcode_opcode] at hm
  exact (Except.ok.inj hm).symm

/-- The row that a lookup finds has the byte that was looked up. -/
theorem opcode_of_find {ir : Byte} {m : Mnemonic}
    (h : Mnemonic.all.find? (fun n => n.opcode == ir) = some m) : m.opcode = ir := by
  have hb := List.find?_some h
  exact eq_of_beq hb

/-- What a supported byte decodes to (30_encoding.md R89). -/
theorem decodeOpcode_eq_ok_iff {ir : Byte} {m : Mnemonic} : decodeOpcode ir = .ok m ↔ ir = m.opcode := by
  refine ⟨fun h => ?_, fun h => h ▸ decodeOpcode_opcode m⟩
  unfold decodeOpcode at h
  split at h
  · next n hn =>
    obtain rfl := Except.ok.inj h
    exact (opcode_of_find hn).symm
  · split at h <;> cases h

/-- What an unsupported byte decodes to: its class is bit 5 (30_encoding.md R89, R90). -/
theorem decodeOpcode_eq_error_iff {ir : Byte} {u : Unsupported} :
    decodeOpcode ir = .error u ↔
      (∀ m : Mnemonic, ir ≠ m.opcode) ∧ u = if aluBit ir then .alu ir else .dispatch ir := by
  constructor
  · intro h
    refine ⟨fun m hm => ?_, ?_⟩
    · subst hm
      rw [decodeOpcode_opcode] at h
      cases h
    · unfold decodeOpcode at h
      split at h
      · cases h
      · split at h <;> simp_all
  · rintro ⟨hno, rfl⟩
    unfold decodeOpcode
    split
    · next n hn => exact absurd (opcode_of_find hn).symm (hno n)
    · split <;> rfl

/-- `AA` of a supported opcode is the number of operand bytes of its instruction (30_encoding.md R88). -/
theorem operandCount_opcode (m : Mnemonic) (a b : Byte) :
    operandCount m.opcode = (m.build a b).operandBytes.length := by
  have h : operandCount m.opcode = (m.build 0 0).operandBytes.length := by cases m <;> decide
  rw [h]
  cases m <;> rfl

@[simp] theorem mnemonic_build (m : Mnemonic) (a b : Byte) : (m.build a b).mnemonic = m := by
  cases m <;> rfl

end Sys2Proof
end

