-- ==== Sys2Proof/Laws/State.lean ====
section
/-! SUPPORT. One lemma per field of State per update, each true by rfl, so that no later proof unfolds a record
update, and the two laws of a register file. -/

namespace Sys2Proof.Machine

/-! ## setReg -/

@[simp] theorem setReg_regs (s : State) (r : RegIndex) (v : Byte) : (s.setReg r v).regs = s.regs.set r v := rfl
@[simp] theorem setReg_pc (s : State) (r : RegIndex) (v : Byte) : (s.setReg r v).pc = s.pc := rfl
@[simp] theorem setReg_ir (s : State) (r : RegIndex) (v : Byte) : (s.setReg r v).ir = s.ir := rfl
@[simp] theorem setReg_fl (s : State) (r : RegIndex) (v : Byte) : (s.setReg r v).fl = s.fl := rfl
@[simp] theorem setReg_mem (s : State) (r : RegIndex) (v : Byte) : (s.setReg r v).mem = s.mem := rfl
@[simp] theorem setReg_run (s : State) (r : RegIndex) (v : Byte) : (s.setReg r v).run = s.run := rfl
@[simp] theorem setReg_out (s : State) (r : RegIndex) (v : Byte) : (s.setReg r v).out = s.out := rfl

/-! ## setSp -/

@[simp] theorem setSp_regs (s : State) (v : Byte) : (s.setSp v).regs = s.regs.set Config.spIndex v := rfl
@[simp] theorem setSp_pc (s : State) (v : Byte) : (s.setSp v).pc = s.pc := rfl
@[simp] theorem setSp_ir (s : State) (v : Byte) : (s.setSp v).ir = s.ir := rfl
@[simp] theorem setSp_fl (s : State) (v : Byte) : (s.setSp v).fl = s.fl := rfl
@[simp] theorem setSp_mem (s : State) (v : Byte) : (s.setSp v).mem = s.mem := rfl
@[simp] theorem setSp_run (s : State) (v : Byte) : (s.setSp v).run = s.run := rfl
@[simp] theorem setSp_out (s : State) (v : Byte) : (s.setSp v).out = s.out := rfl

/-! ## setPc -/

@[simp] theorem setPc_regs (s : State) (p : PcWord) : (s.setPc p).regs = s.regs := rfl
@[simp] theorem setPc_pc (s : State) (p : PcWord) : (s.setPc p).pc = p := rfl
@[simp] theorem setPc_ir (s : State) (p : PcWord) : (s.setPc p).ir = s.ir := rfl
@[simp] theorem setPc_fl (s : State) (p : PcWord) : (s.setPc p).fl = s.fl := rfl
@[simp] theorem setPc_mem (s : State) (p : PcWord) : (s.setPc p).mem = s.mem := rfl
@[simp] theorem setPc_run (s : State) (p : PcWord) : (s.setPc p).run = s.run := rfl
@[simp] theorem setPc_out (s : State) (p : PcWord) : (s.setPc p).out = s.out := rfl
@[simp] theorem setPc_reg (s : State) (p : PcWord) (i : RegIndex) : (s.setPc p).reg i = s.reg i := rfl
@[simp] theorem setPc_sp (s : State) (p : PcWord) : (s.setPc p).sp = s.sp := rfl

/-! ## advance -/

@[simp] theorem advance_regs (s : State) (n : Nat) : (s.advance n).regs = s.regs := rfl
@[simp] theorem advance_pc (s : State) (n : Nat) : (s.advance n).pc = s.pc + BitVec.ofNat 9 (n + 1) := rfl
@[simp] theorem advance_ir (s : State) (n : Nat) : (s.advance n).ir = s.ir := rfl
@[simp] theorem advance_fl (s : State) (n : Nat) : (s.advance n).fl = s.fl := rfl
@[simp] theorem advance_mem (s : State) (n : Nat) : (s.advance n).mem = s.mem := rfl
@[simp] theorem advance_run (s : State) (n : Nat) : (s.advance n).run = s.run := rfl
@[simp] theorem advance_out (s : State) (n : Nat) : (s.advance n).out = s.out := rfl
@[simp] theorem advance_reg (s : State) (n : Nat) (i : RegIndex) : (s.advance n).reg i = s.reg i := rfl
@[simp] theorem advance_sp (s : State) (n : Nat) : (s.advance n).sp = s.sp := rfl

/-! ## setIr -/

@[simp] theorem setIr_regs (s : State) (v : Byte) : (s.setIr v).regs = s.regs := rfl
@[simp] theorem setIr_pc (s : State) (v : Byte) : (s.setIr v).pc = s.pc := rfl
@[simp] theorem setIr_ir (s : State) (v : Byte) : (s.setIr v).ir = v := rfl
@[simp] theorem setIr_fl (s : State) (v : Byte) : (s.setIr v).fl = s.fl := rfl
@[simp] theorem setIr_mem (s : State) (v : Byte) : (s.setIr v).mem = s.mem := rfl
@[simp] theorem setIr_run (s : State) (v : Byte) : (s.setIr v).run = s.run := rfl
@[simp] theorem setIr_out (s : State) (v : Byte) : (s.setIr v).out = s.out := rfl
@[simp] theorem setIr_reg (s : State) (v : Byte) (i : RegIndex) : (s.setIr v).reg i = s.reg i := rfl
@[simp] theorem setIr_sp (s : State) (v : Byte) : (s.setIr v).sp = s.sp := rfl

/-! ## setFl -/

@[simp] theorem setFl_regs (s : State) (f : Flags) : (s.setFl f).regs = s.regs := rfl
@[simp] theorem setFl_pc (s : State) (f : Flags) : (s.setFl f).pc = s.pc := rfl
@[simp] theorem setFl_ir (s : State) (f : Flags) : (s.setFl f).ir = s.ir := rfl
@[simp] theorem setFl_fl (s : State) (f : Flags) : (s.setFl f).fl = f := rfl
@[simp] theorem setFl_mem (s : State) (f : Flags) : (s.setFl f).mem = s.mem := rfl
@[simp] theorem setFl_run (s : State) (f : Flags) : (s.setFl f).run = s.run := rfl
@[simp] theorem setFl_out (s : State) (f : Flags) : (s.setFl f).out = s.out := rfl
@[simp] theorem setFl_reg (s : State) (f : Flags) (i : RegIndex) : (s.setFl f).reg i = s.reg i := rfl
@[simp] theorem setFl_sp (s : State) (f : Flags) : (s.setFl f).sp = s.sp := rfl

/-! ## setMem -/

@[simp] theorem setMem_regs (s : State) (m : Memory) : (s.setMem m).regs = s.regs := rfl
@[simp] theorem setMem_pc (s : State) (m : Memory) : (s.setMem m).pc = s.pc := rfl
@[simp] theorem setMem_ir (s : State) (m : Memory) : (s.setMem m).ir = s.ir := rfl
@[simp] theorem setMem_fl (s : State) (m : Memory) : (s.setMem m).fl = s.fl := rfl
@[simp] theorem setMem_mem (s : State) (m : Memory) : (s.setMem m).mem = m := rfl
@[simp] theorem setMem_run (s : State) (m : Memory) : (s.setMem m).run = s.run := rfl
@[simp] theorem setMem_out (s : State) (m : Memory) : (s.setMem m).out = s.out := rfl
@[simp] theorem setMem_reg (s : State) (m : Memory) (i : RegIndex) : (s.setMem m).reg i = s.reg i := rfl
@[simp] theorem setMem_sp (s : State) (m : Memory) : (s.setMem m).sp = s.sp := rfl

/-! ## halt -/

@[simp] theorem halt_regs (s : State) : (s.halt).regs = s.regs := rfl
@[simp] theorem halt_pc (s : State) : (s.halt).pc = s.pc := rfl
@[simp] theorem halt_ir (s : State) : (s.halt).ir = s.ir := rfl
@[simp] theorem halt_fl (s : State) : (s.halt).fl = s.fl := rfl
@[simp] theorem halt_mem (s : State) : (s.halt).mem = s.mem := rfl
@[simp] theorem halt_run (s : State) : (s.halt).run = .halted := rfl
@[simp] theorem halt_out (s : State) : (s.halt).out = s.out := rfl
@[simp] theorem halt_reg (s : State) (i : RegIndex) : (s.halt).reg i = s.reg i := rfl
@[simp] theorem halt_sp (s : State) : (s.halt).sp = s.sp := rfl

/-! ## emit -/

@[simp] theorem emit_regs (s : State) (v : Byte) : (s.emit v).regs = s.regs := rfl
@[simp] theorem emit_pc (s : State) (v : Byte) : (s.emit v).pc = s.pc := rfl
@[simp] theorem emit_ir (s : State) (v : Byte) : (s.emit v).ir = s.ir := rfl
@[simp] theorem emit_fl (s : State) (v : Byte) : (s.emit v).fl = s.fl := rfl
@[simp] theorem emit_mem (s : State) (v : Byte) : (s.emit v).mem = s.mem := rfl
@[simp] theorem emit_run (s : State) (v : Byte) : (s.emit v).run = s.run := rfl
@[simp] theorem emit_out (s : State) (v : Byte) : (s.emit v).out = s.out ++ [v] := rfl
@[simp] theorem emit_reg (s : State) (v : Byte) (i : RegIndex) : (s.emit v).reg i = s.reg i := rfl
@[simp] theorem emit_sp (s : State) (v : Byte) : (s.emit v).sp = s.sp := rfl

/-! ## raise -/

@[simp] theorem raise_regs (s : State) (c : Cause) : (raise c s).regs = s.regs := rfl
@[simp] theorem raise_pc (s : State) (c : Cause) : (raise c s).pc = s.pc := rfl
@[simp] theorem raise_ir (s : State) (c : Cause) : (raise c s).ir = s.ir := rfl
@[simp] theorem raise_fl (s : State) (c : Cause) : (raise c s).fl = s.fl := rfl
@[simp] theorem raise_mem (s : State) (c : Cause) : (raise c s).mem = s.mem := rfl
@[simp] theorem raise_run (s : State) (c : Cause) : (raise c s).run = .faulted ⟨c.kind, s.pc, s.ir, c.info⟩ := rfl
@[simp] theorem raise_out (s : State) (c : Cause) : (raise c s).out = s.out := rfl
@[simp] theorem raise_reg (s : State) (c : Cause) (i : RegIndex) : (raise c s).reg i = s.reg i := rfl
@[simp] theorem raise_sp (s : State) (c : Cause) : (raise c s).sp = s.sp := rfl

/-! ## Reading a register after writing one -/

@[simp] theorem reg_setReg_same (s : State) (r : RegIndex) (v : Byte) : (s.setReg r v).reg r = v := by
  simp [State.reg, State.setReg]

theorem reg_setReg_other (s : State) {r i : RegIndex} (v : Byte) (h : i ≠ r) : (s.setReg r v).reg i = s.reg i := by
  have h' : r.val ≠ i.val := fun e => h (Fin.ext e.symm)
  simp [State.reg, State.setReg, h']

/-- The register file as a function: one register is the written value and the others are as before. -/
theorem reg_setReg (s : State) (r i : RegIndex) (v : Byte) :
    (s.setReg r v).reg i = if i = r then v else s.reg i := by
  by_cases h : i = r
  · subst h; simp
  · simp [h, reg_setReg_other]

theorem setSp_eq (s : State) (v : Byte) : s.setSp v = s.setReg Config.spIndex v := rfl

theorem sp_eq (s : State) : s.sp = s.reg Config.spIndex := rfl

@[simp] theorem setSp_sp (s : State) (v : Byte) : (s.setSp v).sp = v := reg_setReg_same s _ v

theorem reg_setSp (s : State) (i : RegIndex) (v : Byte) :
    (s.setSp v).reg i = if i = Config.spIndex then v else s.reg i := reg_setReg s _ i v

/-! ## The reset state -/

@[simp] theorem reset_pc : State.reset.pc = 0#9 := rfl
@[simp] theorem reset_ir : State.reset.ir = 0x00#8 := rfl
@[simp] theorem reset_mem : State.reset.mem = [] := rfl
@[simp] theorem reset_run : State.reset.run = .running := rfl
@[simp] theorem reset_out : State.reset.out = [] := rfl
@[simp] theorem reset_fl : State.reset.fl = ⟨false, false, false⟩ := by decide
@[simp] theorem reset_sp : State.reset.sp = 0xF4#8 := by decide

end Sys2Proof.Machine
end

