-- ==== Sys2Proof/Laws/Memory.lean ====
section
/-! SUPPORT. Memory: reading after writing, and every operation keeps the canonical form. -/

namespace Sys2Proof.Machine

/-! ## Reading after writing -/

@[simp] theorem read_nil (a : Nat) : Memory.read [] a = Config.memFill := rfl

theorem read_of_lt_all {m : Memory} {a : Nat} (h : ∀ c ∈ m, a < c.1) : Memory.read m a = Config.memFill := by
  induction m with
  | nil => rfl
  | cons c rest ih =>
    obtain ⟨k, w⟩ := c
    have hk : a < k := h (k, w) (by simp)
    simp only [Memory.read, if_neg (show ¬ k = a by omega)]
    exact ih fun c hc => h c (by simp [hc])

theorem read_cons_same {m : Memory} {a : Nat} (v : Byte) (h : ∀ c ∈ m, a < c.1) :
    Memory.read (Memory.cons a v m) a = v := by
  by_cases hv : v = Config.memFill
  · rw [Memory.cons, if_pos hv, read_of_lt_all h, hv]
  · simp [Memory.cons, if_neg hv, Memory.read]

theorem read_cons_other (m : Memory) {a b : Nat} (v : Byte) (h : b ≠ a) :
    Memory.read (Memory.cons a v m) b = Memory.read m b := by
  by_cases hv : v = Config.memFill
  · simp only [Memory.cons, if_pos hv]
  · simp only [Memory.cons, if_neg hv, Memory.read, if_neg (Ne.symm h)]

/-- A write leaves every other cell alone, whatever the memory. -/
theorem read_write_other (m : Memory) {a b : Nat} (v : Byte) (h : b ≠ a) :
    (m.write a v).read b = m.read b := by
  induction m with
  | nil => exact read_cons_other [] v h
  | cons c rest ih =>
    obtain ⟨k, w⟩ := c
    simp only [Memory.write]
    split
    · exact read_cons_other _ v h
    · split
      · next hak => subst hak; simp only [read_cons_other _ v h, Memory.read, if_neg (Ne.symm h)]
      · simp only [Memory.read, ih]

/-- A read after a write to the same cell gives the value written, in memory whose addresses rise. -/
theorem read_write_same {m : Memory} (hm : m.Pairwise (fun c d => c.1 < d.1)) (a : Nat) (v : Byte) :
    (m.write a v).read a = v := by
  induction m with
  | nil => exact read_cons_same v (by simp)
  | cons c rest ih =>
    obtain ⟨k, w⟩ := c
    obtain ⟨hk, hrest⟩ := List.pairwise_cons.1 hm
    simp only [Memory.write]
    split
    · next hak =>
      refine read_cons_same v fun d hd => ?_
      rcases List.mem_cons.1 hd with rfl | hd
      · exact hak
      · exact lt_trans hak (hk d hd)
    · split
      · next hak => subst hak; exact read_cons_same v hk
      · next hak => simp only [Memory.read, if_neg (Ne.symm hak), ih hrest]

/-- What any cell holds after a write (20_memory.md R60). -/
theorem read_write {m : Memory} (hm : m.wf) (a b : Nat) (v : Byte) :
    (m.write a v).read b = if b = a then v else m.read b := by
  by_cases h : b = a
  · subst h; simp [read_write_same hm.1]
  · simp [h, read_write_other]

/-! ## The canonical form is kept -/

theorem wf_nil : Memory.wf [] := ⟨List.Pairwise.nil, by simp⟩

theorem wf_tail {c : Host.Cell} {m : Memory} (h : Memory.wf (c :: m)) : m.wf :=
  ⟨(List.pairwise_cons.1 h.1).2, fun d hd => h.2 d (by simp [hd])⟩

theorem mem_cons_cell {m : Memory} {a : Nat} {v : Byte} {c : Host.Cell} (h : c ∈ Memory.cons a v m) :
    c.1 = a ∨ c ∈ m := by
  unfold Memory.cons at h
  split at h
  · exact .inr h
  · rcases List.mem_cons.1 h with rfl | h
    · exact .inl rfl
    · exact .inr h

theorem cons_wf {m : Memory} (hm : m.wf) {a : Nat} (ha : a < Config.memSize) (v : Byte)
    (hlt : ∀ c ∈ m, a < c.1) : (Memory.cons a v m).wf := by
  unfold Memory.cons
  split
  · exact hm
  · next hv =>
    refine ⟨List.pairwise_cons.2 ⟨hlt, hm.1⟩, fun c hc => ?_⟩
    rcases List.mem_cons.1 hc with rfl | hc
    · exact ⟨ha, hv⟩
    · exact hm.2 c hc

theorem mem_write {m : Memory} {a : Nat} {v : Byte} {c : Host.Cell} (h : c ∈ m.write a v) :
    c.1 = a ∨ c ∈ m := by
  induction m with
  | nil => exact mem_cons_cell h
  | cons d rest ih =>
    obtain ⟨k, w⟩ := d
    simp only [Memory.write] at h
    split at h
    · exact mem_cons_cell h
    · split at h
      · exact (mem_cons_cell h).imp_right fun h => by simp [h]
      · rcases List.mem_cons.1 h with rfl | h
        · exact .inr (by simp)
        · exact (ih h).imp_right fun h => by simp [h]

/-- A write inside 0 to 255 keeps the canonical form. -/
theorem write_wf {m : Memory} (hm : m.wf) {a : Nat} (ha : a < Config.memSize) (v : Byte) : (m.write a v).wf := by
  induction m with
  | nil => exact cons_wf wf_nil ha v (by simp)
  | cons c rest ih =>
    obtain ⟨k, w⟩ := c
    have hk := (List.pairwise_cons.1 hm.1).1
    simp only [Memory.write]
    split
    · next hak =>
      refine cons_wf hm ha v fun d hd => ?_
      rcases List.mem_cons.1 hd with rfl | hd
      · exact hak
      · exact lt_trans hak (hk d hd)
    · split
      · next hak => subst hak; exact cons_wf (wf_tail hm) ha v hk
      · next hlt hne =>
        have hr := ih (wf_tail hm)
        refine ⟨List.pairwise_cons.2 ⟨fun d hd => ?_, hr.1⟩, fun d hd => ?_⟩
        · rcases mem_write hd with h | h
          · show k < d.1
            omega
          · exact hk d h
        · rcases List.mem_cons.1 hd with rfl | hd
          · exact hm.2 _ (by simp)
          · exact hr.2 d hd

/-- Storing a program or an instruction keeps the canonical form. -/
theorem writeBytes_wf {m : Memory} (hm : m.wf) (a : Nat) (bytes : List Byte) : (m.writeBytes a bytes).wf := by
  induction bytes generalizing m a with
  | nil => exact hm
  | cons v rest ih =>
    simp only [Memory.writeBytes]
    split
    · next ha => exact ih (write_wf hm ha v) _
    · exact ih hm _

/-- What a cell holds after bytes were stored from `a` on: the byte of its place, or what it held before. -/
theorem read_writeBytes {m : Memory} (hm : m.wf) (a : Nat) (bytes : List Byte)
    (hlen : a + bytes.length ≤ Config.memSize) (b : Nat) :
    (m.writeBytes a bytes).read b =
      if h : a ≤ b ∧ b < a + bytes.length then bytes[b - a]'(by omega) else m.read b := by
  induction bytes generalizing m a with
  | nil => simp [Memory.writeBytes, show ¬ (a ≤ b ∧ b < a) by omega]
  | cons v rest ih =>
    have hl : a + 1 + rest.length ≤ Config.memSize := by simp only [List.length_cons] at hlen; omega
    have ha : a < Config.memSize := by omega
    simp only [Memory.writeBytes, if_pos ha, ih (write_wf hm ha v) (a + 1) hl, read_write hm, List.length_cons]
    by_cases hba : b = a
    · subst hba
      simp
    · by_cases hin : a + 1 ≤ b ∧ b < a + 1 + rest.length
      · have hin' : a ≤ b ∧ b < a + (rest.length + 1) := by omega
        have hidx : b - a = (b - (a + 1)) + 1 := by omega
        simp only [dif_pos hin, dif_pos hin', hidx, List.getElem_cons_succ]
      · have hin' : ¬ (a ≤ b ∧ b < a + (rest.length + 1)) := by omega
        simp only [dif_neg hin, dif_neg hin', if_neg hba]

end Sys2Proof.Machine
end

