-- ==== Sys2Proof/Laws/Ops.lean ====
section
/-! SUPPORT. One spec lemma for each shared operation: everything it can answer. The provers cite these and do not
unfold the operations. -/

namespace Sys2Proof.Machine

/-! ## Sequencing in `Except Cause` -/

@[simp] theorem ok_bind {α β : Type} (a : α) (f : α → Except Cause β) : (Except.ok a >>= f) = f a := rfl

@[simp] theorem error_bind {α β : Type} (c : Cause) (f : α → Except Cause β) :
    ((Except.error c : Except Cause α) >>= f) = .error c := rfl

@[simp] theorem pure_eq_ok {α : Type} (a : α) : (pure a : Except Cause α) = .ok a := rfl

theorem bind_eq_ok_iff {α β : Type} {x : Except Cause α} {f : α → Except Cause β} {r : β} :
    (x >>= f) = .ok r ↔ ∃ a, x = .ok a ∧ f a = .ok r := by
  cases x <;> simp

theorem bind_eq_error_iff {α β : Type} {x : Except Cause α} {f : α → Except Cause β} {c : Cause} :
    (x >>= f) = .error c ↔ x = .error c ∨ ∃ a, x = .ok a ∧ f a = .error c := by
  cases x <;> simp

/-! ## orRaise -/

@[simp] theorem orRaise_ok (s t : State) : orRaise s (.ok t) = .next t := rfl

@[simp] theorem orRaise_error (s : State) (c : Cause) : orRaise s (.error c) = .next (raise c s) := rfl

/-- An instruction completes with all of its writes, or raises with none of them (60_exceptions.md R228). -/
theorem orRaise_eq_next_iff {s t : State} {r : Except Cause State} :
    orRaise s r = .next t ↔ r = .ok t ∨ ∃ c, r = .error c ∧ t = raise c s := by
  cases r <;> simp [eq_comm]

/-! ## Register operands -/

theorem checkReg_eq_ok_iff {i : Byte} {r : RegIndex} : checkReg i = .ok r ↔ i.toNat = r.val := by
  unfold checkReg
  split
  · simp [Fin.ext_iff]
  · simp only [reduceCtorEq, false_iff]; omega

theorem checkReg_eq_error_iff {i : Byte} {c : Cause} :
    checkReg i = .error c ↔ 7 < i.toNat ∧ c = .invalidRegister i := by
  unfold checkReg
  split
  · simp only [reduceCtorEq, false_iff]; omega
  · simp only [Except.error.injEq, eq_comm (a := c)]; constructor
    · exact fun h => ⟨by omega, h⟩
    · exact fun h => h.2

theorem checkReg_of_index {i : Byte} {r : RegIndex} (h : i.toNat = r.val) : checkReg i = .ok r :=
  checkReg_eq_ok_iff.2 h

theorem checkReg_of_gt {i : Byte} (h : 7 < i.toNat) : checkReg i = .error (.invalidRegister i) :=
  checkReg_eq_error_iff.2 ⟨h, rfl⟩

theorem operandR_eq (a : Byte) : operandR a = checkReg a := rfl

theorem operandRR_eq_ok_iff {a b : Byte} {ra rb : RegIndex} :
    operandRR a b = .ok (ra, rb) ↔ a.toNat = ra.val ∧ b.toNat = rb.val := by
  simp [operandRR, bind_eq_ok_iff, checkReg_eq_ok_iff]

theorem operandRR_eq_error_iff {a b : Byte} {c : Cause} :
    operandRR a b = .error c ↔
      (7 < a.toNat ∧ c = .invalidRegister a) ∨ (a.toNat ≤ 7 ∧ 7 < b.toNat ∧ c = .invalidRegister b) := by
  simp only [operandRR, bind_eq_error_iff, checkReg_eq_error_iff, checkReg_eq_ok_iff, pure_eq_ok, reduceCtorEq,
    and_false, exists_false, or_false]
  constructor
  · rintro (h | ⟨r, hr, h⟩)
    · exact .inl h
    · exact .inr ⟨by omega, h⟩
  · rintro (h | ⟨ha, h⟩)
    · exact .inl h
    · exact .inr ⟨⟨a.toNat, by omega⟩, rfl, h⟩

theorem operandRR_of_index {a b : Byte} {ra rb : RegIndex} (ha : a.toNat = ra.val) (hb : b.toNat = rb.val) :
    operandRR a b = .ok (ra, rb) := operandRR_eq_ok_iff.2 ⟨ha, hb⟩

/-! ## The ALU template -/

theorem aluWrite_of_index {a b : Byte} {ra rb : RegIndex} (ha : a.toNat = ra.val) (hb : b.toNat = rb.val)
    (op : Byte → Byte → Except Cause Byte) (s : State) :
    aluWrite a b op s =
      orRaise s ((op (s.reg ra) (s.reg rb)).map fun result => (s.setReg ra result).advance 2) := by
  simp only [aluWrite, operandRR_of_index ha hb, ok_bind]
  cases op (s.reg ra) (s.reg rb) <;> rfl

theorem aluWrite_of_invalid {a b : Byte} {c : Cause} (h : operandRR a b = .error c)
    (op : Byte → Byte → Except Cause Byte) (s : State) : aluWrite a b op s = .next (raise c s) := by
  simp only [aluWrite, h, error_bind, orRaise_error]

/-- Everything the template can answer: the completed instruction, an invalid register, or the operation's own fault. -/
theorem aluWrite_cases {a b : Byte} {op : Byte → Byte → Except Cause Byte} {s t : State}
    (h : aluWrite a b op s = .next t) :
    (∃ ra rb : RegIndex, ∃ result, a.toNat = ra.val ∧ b.toNat = rb.val ∧
        op (s.reg ra) (s.reg rb) = .ok result ∧ t = (s.setReg ra result).advance 2) ∨
    (∃ c, operandRR a b = .error c ∧ t = raise c s) ∨
    (∃ ra rb : RegIndex, ∃ c, a.toNat = ra.val ∧ b.toNat = rb.val ∧
        op (s.reg ra) (s.reg rb) = .error c ∧ t = raise c s) := by
  rcases hop : operandRR a b with c | ⟨ra, rb⟩
  · rw [aluWrite_of_invalid hop] at h
    exact .inr (.inl ⟨c, rfl, by simpa using h.symm⟩)
  · obtain ⟨ha, hb⟩ := operandRR_eq_ok_iff.1 hop
    rw [aluWrite_of_index ha hb] at h
    rcases hres : op (s.reg ra) (s.reg rb) with c | result
    · refine .inr (.inr ⟨ra, rb, c, ha, hb, hres, ?_⟩)
      rw [hres] at h
      exact (Host.Outcome.next.inj h).symm
    · refine .inl ⟨ra, rb, result, ha, hb, hres, ?_⟩
      rw [hres] at h
      exact (Host.Outcome.next.inj h).symm

/-! ## Memory accesses -/

theorem memRead_eq_ok_iff {s : State} {addr : Int} {v : Byte} :
    memRead s addr = .ok v ↔ 0 ≤ addr ∧ addr ≤ 255 ∧ s.mem.read addr.toNat = v := by
  unfold memRead
  split
  · simp only [reduceCtorEq, false_iff]; omega
  · simp only [Except.ok.injEq]; constructor
    · exact fun h => ⟨by omega, by omega, h⟩
    · exact fun h => h.2.2

theorem memRead_eq_error_iff {s : State} {addr : Int} {c : Cause} :
    memRead s addr = .error c ↔ (addr < 0 ∨ 255 < addr) ∧ c = .outOfBounds addr := by
  unfold memRead
  split
  · next h => simp [h, eq_comm]
  · next h => simp [h]

/-- A read at a byte's address cannot fault (20_memory.md R68). -/
@[simp] theorem memRead_byte (s : State) (a : Byte) :
    memRead s (Int.ofNat a.toNat) = .ok (s.mem.read a.toNat) := by
  have := a.isLt
  exact memRead_eq_ok_iff.2 ⟨by simp, by simp; omega, by simp⟩

theorem memWrite_eq_ok_iff {s t : State} {addr v : Int} :
    memWrite s addr v = .ok t ↔
      0 ≤ addr ∧ addr ≤ 255 ∧ s.setMem (s.mem.write addr.toNat (BitVec.ofInt 8 v)) = t := by
  unfold memWrite
  split
  · simp only [reduceCtorEq, false_iff]; omega
  · simp only [Except.ok.injEq]; constructor
    · exact fun h => ⟨by omega, by omega, h⟩
    · exact fun h => h.2.2

theorem memWrite_eq_error_iff {s : State} {addr v : Int} {c : Cause} :
    memWrite s addr v = .error c ↔ (addr < 0 ∨ 255 < addr) ∧ c = .outOfBounds addr := by
  unfold memWrite
  split
  · next h => simp [h, eq_comm]
  · next h => simp [h]

/-- A write at a byte's address cannot fault (20_memory.md R68). -/
@[simp] theorem memWrite_byte (s : State) (a : Byte) (v : Nat) :
    memWrite s (Int.ofNat a.toNat) (Int.ofNat v) = .ok (s.setMem (s.mem.write a.toNat (BitVec.ofNat 8 v))) := by
  have := a.isLt
  have hv : BitVec.ofInt 8 (Int.ofNat v) = BitVec.ofNat 8 v := BitVec.ofInt_natCast 8 v
  exact memWrite_eq_ok_iff.2 ⟨by simp, by simp; omega, by rw [hv]; rfl⟩

/-! ## The stack pointer's checks -/

theorem pushAddress_of_ne {s : State} (h : s.sp ≠ 0#8) : pushAddress s = .ok (s.sp - 1#8) := by
  simp [pushAddress, h]

theorem pushAddress_of_eq {s : State} (h : s.sp = 0#8) : pushAddress s = .error (.outOfBounds (-1)) := by
  simp [pushAddress, h]

theorem pushAddress_eq_ok_iff {s : State} {a : Byte} : pushAddress s = .ok a ↔ s.sp ≠ 0#8 ∧ s.sp - 1#8 = a := by
  unfold pushAddress
  split <;> simp_all

theorem pushAddress_eq_error_iff {s : State} {c : Cause} :
    pushAddress s = .error c ↔ s.sp = 0#8 ∧ c = .outOfBounds (-1) := by
  unfold pushAddress
  split <;> simp_all [eq_comm]

theorem checkNotEmpty_eq_error_iff {s : State} {c : Cause} :
    checkNotEmpty s = .error c ↔ s.sp = Config.spInit ∧ c = .emptyStack := by
  unfold checkNotEmpty
  split <;> simp_all [eq_comm]

theorem checkNotEmpty_eq_ok_iff {s : State} : checkNotEmpty s = .ok () ↔ s.sp ≠ Config.spInit := by
  unfold checkNotEmpty
  split <;> simp_all

theorem incrementedSp_eq_ok_iff {n : Nat} {v : Byte} :
    incrementedSp n = .ok v ↔ n ≤ 255 ∧ BitVec.ofNat 8 n = v := by
  unfold incrementedSp
  split
  · simp only [reduceCtorEq, false_iff]; omega
  · simp only [Except.ok.injEq]; exact ⟨fun h => ⟨by omega, h⟩, fun h => h.2⟩

theorem incrementedSp_eq_error_iff {n : Nat} {c : Cause} :
    incrementedSp n = .error c ↔ 255 < n ∧ c = .outOfBounds (Int.ofNat n) := by
  unfold incrementedSp
  split
  · next h => simp only [Except.error.injEq, eq_comm (a := c), h, true_and]
  · next h => simp only [reduceCtorEq, false_iff]; exact fun hh => h hh.1

theorem checkNotEmpty_of_ne {s : State} (h : s.sp ≠ Config.spInit) : checkNotEmpty s = .ok () := by
  simp [checkNotEmpty, h]

theorem checkNotEmpty_of_eq {s : State} (h : s.sp = Config.spInit) : checkNotEmpty s = .error .emptyStack := by
  simp [checkNotEmpty, h]

theorem incrementedSp_of_le {n : Nat} (h : n ≤ 255) : incrementedSp n = .ok (BitVec.ofNat 8 n) := by
  simp [incrementedSp, show ¬ 255 < n by omega]

theorem incrementedSp_of_gt {n : Nat} (h : 255 < n) : incrementedSp n = .error (.outOfBounds (Int.ofNat n)) := by
  simp [incrementedSp, h]

/-! ## The compare -/

theorem compareFlags_eq {u v : Byte} (h : u = v) : compareFlags u v = ⟨false, false, true⟩ := by
  simp [compareFlags, h]

theorem compareFlags_lt {u v : Byte} (h : u.toNat < v.toNat) : compareFlags u v = ⟨true, false, false⟩ := by
  simp [compareFlags, h, show u.toNat ≠ v.toNat by omega]

theorem compareFlags_gt {u v : Byte} (h : v.toNat < u.toNat) : compareFlags u v = ⟨false, true, false⟩ := by
  simp [compareFlags, show ¬ u.toNat < v.toNat by omega, show u.toNat ≠ v.toNat by omega]

/-! ## Fetch -/

theorem fetchOpcode_of_le {s : State} (h : s.pc.toNat ≤ 255) : fetchOpcode s = .ok (s.mem.read s.pc.toNat) :=
  memRead_eq_ok_iff.2 ⟨by simp, by simp; omega, by simp⟩

theorem fetchOpcode_of_gt {s : State} (h : 255 < s.pc.toNat) :
    fetchOpcode s = .error (.outOfBounds (Int.ofNat s.pc.toNat)) :=
  memRead_eq_error_iff.2 ⟨by simp; omega, rfl⟩

theorem fetchOperand_of_absent {s : State} {n k : Nat} (h : n < k) : fetchOperand s n k = .ok 0 := by
  simp [fetchOperand, show ¬ k ≤ n by omega]

theorem fetchOperand_of_le {s : State} {n k : Nat} (hk : k ≤ n) (h : s.pc.toNat + k ≤ 255) :
    fetchOperand s n k = .ok (s.mem.read (s.pc.toNat + k)) := by
  simp only [fetchOperand, if_pos hk]
  exact memRead_eq_ok_iff.2 ⟨Int.natCast_nonneg _, by simp; omega, rfl⟩

theorem fetchOperand_of_gt {s : State} {n k : Nat} (hk : k ≤ n) (h : 255 < s.pc.toNat + k) :
    fetchOperand s n k = .error (.outOfBounds (Int.ofNat (s.pc.toNat + k))) := by
  simp only [fetchOperand, if_pos hk]
  exact memRead_eq_error_iff.2 ⟨by simp; omega, rfl⟩

end Sys2Proof.Machine
end

