-- ==== Sys2Proof/Laws/Fetch.lean ====
section
/-! SUPPORT. The cycle: what fetching an instruction can answer, and the cases of a step. -/

namespace Sys2Proof.Machine

/-- The bytes at PC, one by one. -/
theorem codeBytes_eq (s : State) :
    s.codeBytes =
      (if s.pc.toNat < 256 then [s.mem.read s.pc.toNat] else []) ++
      (if s.pc.toNat + 1 < 256 then [s.mem.read (s.pc.toNat + 1)] else []) ++
      (if s.pc.toNat + 2 < 256 then [s.mem.read (s.pc.toNat + 2)] else []) := by
  have h3 : List.range 3 = [0, 1, 2] := rfl
  simp only [State.codeBytes, h3, List.filter_cons, List.filter_nil, Nat.add_zero, decide_eq_true_eq]
  split <;> split <;> split <;> simp_all

theorem decodeIr_eq_ok_iff {s : State} {m : Mnemonic} : decodeIr s = .ok m ↔ s.ir = m.opcode := by
  rw [← decodeOpcode_eq_ok_iff]
  unfold decodeIr
  split <;> simp_all

theorem decodeIr_eq_error_iff {s : State} {c : Cause} :
    decodeIr s = .error c ↔ (∀ m : Mnemonic, s.ir ≠ m.opcode) ∧
      c = if aluBit s.ir then .unsupportedALUOperation s.ir else .unsupportedInstruction s.ir := by
  unfold decodeIr
  split
  · next m hm =>
    have := decodeOpcode_eq_ok_iff.1 hm
    simp only [reduceCtorEq, false_iff]
    exact fun h => h.1 m this
  · next u hu =>
    obtain ⟨hno, rfl⟩ := decodeOpcode_eq_error_iff.1 hu
    simp only [Except.error.injEq]
    constructor
    · rintro rfl
      exact ⟨hno, by split <;> rfl⟩
    · rintro ⟨-, rfl⟩
      split <;> rfl

/-- An operand read answers a byte only when the address exists, and faults only past 255. -/
theorem fetchOperand_eq_ok {s : State} {n k : Nat} {v : Byte} (h : fetchOperand s n k = .ok v) (hk : k ≤ n) :
    s.pc.toNat + k ≤ 255 ∧ v = s.mem.read (s.pc.toNat + k) := by
  by_cases hle : s.pc.toNat + k ≤ 255
  · rw [fetchOperand_of_le hk hle] at h
    exact ⟨hle, (Except.ok.inj h).symm⟩
  · rw [fetchOperand_of_gt hk (by omega)] at h
    cases h

theorem fetchOperand_eq_error {s : State} {n k : Nat} {c : Cause} (h : fetchOperand s n k = .error c) :
    k ≤ n ∧ 255 < s.pc.toNat + k ∧ c = .outOfBounds (Int.ofNat (s.pc.toNat + k)) := by
  by_cases hk : k ≤ n
  · by_cases hle : s.pc.toNat + k ≤ 255
    · rw [fetchOperand_of_le hk hle] at h
      cases h
    · rw [fetchOperand_of_gt hk (by omega)] at h
      exact ⟨hk, by omega, (Except.error.inj h).symm⟩
  · rw [fetchOperand_of_absent (by omega)] at h
    cases h

/-- An instruction that was fetched whole: its operation is IR's, and all of its bytes exist. -/
theorem fetchInstr_eq_ok {s : State} {i : Instr} (h : fetchInstr s = .ok i) :
    s.ir = i.opcode ∧ (1 ≤ operandCount s.ir → s.pc.toNat + operandCount s.ir ≤ 255) := by
  simp only [fetchInstr, bind_eq_ok_iff, pure_eq_ok, Except.ok.injEq] at h
  obtain ⟨m, hm, a, ha, b, hb, rfl⟩ := h
  have hir := decodeIr_eq_ok_iff.1 hm
  refine ⟨by simp [Instr.opcode, hir], fun h1 => ?_⟩
  have ha' := fetchOperand_eq_ok ha h1
  by_cases h2 : 2 ≤ operandCount s.ir
  · have hb' := fetchOperand_eq_ok hb h2
    have hle : operandCount s.ir ≤ 2 := by rw [hir]; cases m <;> decide
    omega
  · omega

/-- A fetch that faulted after the opcode was read: an unsupported opcode, or an operand byte past 255. -/
theorem fetchInstr_eq_error {s : State} {c : Cause} (h : fetchInstr s = .error c) :
    ((∀ m : Mnemonic, s.ir ≠ m.opcode) ∧
      c = if aluBit s.ir then .unsupportedALUOperation s.ir else .unsupportedInstruction s.ir) ∨
    ∃ k, 1 ≤ k ∧ k ≤ 2 ∧ k ≤ operandCount s.ir ∧ (k = 2 → s.pc.toNat + 1 ≤ 255) ∧
      255 < s.pc.toNat + k ∧ c = .outOfBounds (Int.ofNat (s.pc.toNat + k)) := by
  simp only [fetchInstr, bind_eq_error_iff, pure_eq_ok, reduceCtorEq, and_false, exists_false, or_false] at h
  rcases h with h | ⟨m, hm, h | ⟨a, ha, h⟩⟩
  · exact .inl (decodeIr_eq_error_iff.1 h)
  · obtain ⟨hk, hgt, rfl⟩ := fetchOperand_eq_error h
    exact .inr ⟨1, le_refl 1, by omega, hk, by omega, hgt, rfl⟩
  · obtain ⟨hk, hgt, rfl⟩ := fetchOperand_eq_error h
    exact .inr ⟨2, by omega, le_refl 2, hk, fun _ => (fetchOperand_eq_ok ha (by omega)).1, hgt, rfl⟩

/-- Everything a step that answers a next state can have done: the opcode fetch faulted, or a later part of the fetch
faulted with the opcode in IR, or the instruction executed. -/
theorem step_cases {s t : State} (h : step s = .next t) :
    s.run = .running ∧
    ((255 < s.pc.toNat ∧ t = raise (.outOfBounds (Int.ofNat s.pc.toNat)) s) ∨
     (s.pc.toNat ≤ 255 ∧ ∃ c, fetchInstr (s.setIr (s.mem.read s.pc.toNat)) = .error c ∧
        t = raise c (s.setIr (s.mem.read s.pc.toNat))) ∨
     (s.pc.toNat ≤ 255 ∧ ∃ i, fetchInstr (s.setIr (s.mem.read s.pc.toNat)) = .ok i ∧
        exec i (s.setIr (s.mem.read s.pc.toNat)) = .next t)) := by
  unfold step at h
  split at h
  · next hrun =>
    refine ⟨hrun, ?_⟩
    unfold cycle at h
    by_cases hpc : s.pc.toNat ≤ 255
    · simp only [fetchOpcode_of_le hpc] at h
      split at h
      · next c hc => exact .inr (.inl ⟨hpc, c, hc, (Host.Outcome.next.inj h).symm⟩)
      · next i hi => exact .inr (.inr ⟨hpc, i, hi, h⟩)
    · simp only [fetchOpcode_of_gt (show 255 < s.pc.toNat by omega)] at h
      exact .inl ⟨by omega, (Host.Outcome.next.inj h).symm⟩
  · cases h
  · cases h

end Sys2Proof.Machine
end

