-- ==== Sys2Proof/Laws/PerInstr.lean ====
section
/-! SUPPORT. The family Layout: the opcode byte of every instruction agrees with the layout `AABCDDDD`
(spec/30_encoding.md R81, R82, R88). -/

namespace Sys2Proof.Laws.Layout

/-- The twelve ALU operations (00_scope.md R2). -/
def isAlu : Instr → Bool
  | .add _ _ | .sub _ _ | .mul _ _ | .div _ _ | .mod _ _ | .and _ _ | .or _ _ | .xor _ _ | .not _
  | .shl _ _ | .shr _ _ | .cmp _ _ => true
  | .ldi _ _ | .prn _ | .push _ | .pop _ | .call _ | .ret | .jmp _ | .jeq _ | .jne _ | .hlt => false

/-- The five instructions that can set PC (30_encoding.md R88). -/
def setsPc : Instr → Bool
  | .call _ | .ret | .jmp _ | .jeq _ | .jne _ => true
  | .add _ _ | .sub _ _ | .mul _ _ | .div _ _ | .mod _ _ | .and _ _ | .or _ _ | .xor _ _ | .not _
  | .shl _ _ | .shr _ _ | .cmp _ _ | .ldi _ _ | .prn _ | .push _ | .pop _ | .hlt => false

/-- `AA` is the number of operand bytes, `B` says whether the ALU runs it, `C` whether it sets PC, and the encoding is
`AA + 1` bytes long. -/
def Statement (i : Instr) : Prop :=
  operandCount i.opcode = i.operandBytes.length ∧ aluBit i.opcode = isAlu i ∧ setsPcBit i.opcode = setsPc i ∧
    (encode i).length = operandCount i.opcode + 1

/-- The length follows from the count of operand bytes. -/
theorem of_fields {i : Instr} (aa : operandCount i.opcode = i.operandBytes.length)
    (b : aluBit i.opcode = isAlu i) (c : setsPcBit i.opcode = setsPc i) : Statement i :=
  ⟨aa, b, c, by simp [encode, aa]⟩

theorem add (a b : Byte) : Statement (.add a b) :=
  of_fields (show operandCount Mnemonic.add.opcode = 2 by decide) (show aluBit Mnemonic.add.opcode = true by decide)
    (show setsPcBit Mnemonic.add.opcode = false by decide)
theorem sub (a b : Byte) : Statement (.sub a b) :=
  of_fields (show operandCount Mnemonic.sub.opcode = 2 by decide) (show aluBit Mnemonic.sub.opcode = true by decide)
    (show setsPcBit Mnemonic.sub.opcode = false by decide)
theorem mul (a b : Byte) : Statement (.mul a b) :=
  of_fields (show operandCount Mnemonic.mul.opcode = 2 by decide) (show aluBit Mnemonic.mul.opcode = true by decide)
    (show setsPcBit Mnemonic.mul.opcode = false by decide)
theorem div (a b : Byte) : Statement (.div a b) :=
  of_fields (show operandCount Mnemonic.div.opcode = 2 by decide) (show aluBit Mnemonic.div.opcode = true by decide)
    (show setsPcBit Mnemonic.div.opcode = false by decide)
theorem mod (a b : Byte) : Statement (.mod a b) :=
  of_fields (show operandCount Mnemonic.mod.opcode = 2 by decide) (show aluBit Mnemonic.mod.opcode = true by decide)
    (show setsPcBit Mnemonic.mod.opcode = false by decide)
theorem and (a b : Byte) : Statement (.and a b) :=
  of_fields (show operandCount Mnemonic.and.opcode = 2 by decide) (show aluBit Mnemonic.and.opcode = true by decide)
    (show setsPcBit Mnemonic.and.opcode = false by decide)
theorem or (a b : Byte) : Statement (.or a b) :=
  of_fields (show operandCount Mnemonic.or.opcode = 2 by decide) (show aluBit Mnemonic.or.opcode = true by decide)
    (show setsPcBit Mnemonic.or.opcode = false by decide)
theorem xor (a b : Byte) : Statement (.xor a b) :=
  of_fields (show operandCount Mnemonic.xor.opcode = 2 by decide) (show aluBit Mnemonic.xor.opcode = true by decide)
    (show setsPcBit Mnemonic.xor.opcode = false by decide)
theorem not (a : Byte) : Statement (.not a) :=
  of_fields (show operandCount Mnemonic.not.opcode = 1 by decide) (show aluBit Mnemonic.not.opcode = true by decide)
    (show setsPcBit Mnemonic.not.opcode = false by decide)
theorem shl (a b : Byte) : Statement (.shl a b) :=
  of_fields (show operandCount Mnemonic.shl.opcode = 2 by decide) (show aluBit Mnemonic.shl.opcode = true by decide)
    (show setsPcBit Mnemonic.shl.opcode = false by decide)
theorem shr (a b : Byte) : Statement (.shr a b) :=
  of_fields (show operandCount Mnemonic.shr.opcode = 2 by decide) (show aluBit Mnemonic.shr.opcode = true by decide)
    (show setsPcBit Mnemonic.shr.opcode = false by decide)
theorem cmp (a b : Byte) : Statement (.cmp a b) :=
  of_fields (show operandCount Mnemonic.cmp.opcode = 2 by decide) (show aluBit Mnemonic.cmp.opcode = true by decide)
    (show setsPcBit Mnemonic.cmp.opcode = false by decide)
theorem ldi (a b : Byte) : Statement (.ldi a b) :=
  of_fields (show operandCount Mnemonic.ldi.opcode = 2 by decide) (show aluBit Mnemonic.ldi.opcode = false by decide)
    (show setsPcBit Mnemonic.ldi.opcode = false by decide)
theorem prn (a : Byte) : Statement (.prn a) :=
  of_fields (show operandCount Mnemonic.prn.opcode = 1 by decide) (show aluBit Mnemonic.prn.opcode = false by decide)
    (show setsPcBit Mnemonic.prn.opcode = false by decide)
theorem push (a : Byte) : Statement (.push a) :=
  of_fields (show operandCount Mnemonic.push.opcode = 1 by decide) (show aluBit Mnemonic.push.opcode = false by decide)
    (show setsPcBit Mnemonic.push.opcode = false by decide)
theorem pop (a : Byte) : Statement (.pop a) :=
  of_fields (show operandCount Mnemonic.pop.opcode = 1 by decide) (show aluBit Mnemonic.pop.opcode = false by decide)
    (show setsPcBit Mnemonic.pop.opcode = false by decide)
theorem call (a : Byte) : Statement (.call a) :=
  of_fields (show operandCount Mnemonic.call.opcode = 1 by decide) (show aluBit Mnemonic.call.opcode = false by decide)
    (show setsPcBit Mnemonic.call.opcode = true by decide)
theorem ret : Statement .ret :=
  of_fields (show operandCount Mnemonic.ret.opcode = 0 by decide) (show aluBit Mnemonic.ret.opcode = false by decide)
    (show setsPcBit Mnemonic.ret.opcode = true by decide)
theorem jmp (a : Byte) : Statement (.jmp a) :=
  of_fields (show operandCount Mnemonic.jmp.opcode = 1 by decide) (show aluBit Mnemonic.jmp.opcode = false by decide)
    (show setsPcBit Mnemonic.jmp.opcode = true by decide)
theorem jeq (a : Byte) : Statement (.jeq a) :=
  of_fields (show operandCount Mnemonic.jeq.opcode = 1 by decide) (show aluBit Mnemonic.jeq.opcode = false by decide)
    (show setsPcBit Mnemonic.jeq.opcode = true by decide)
theorem jne (a : Byte) : Statement (.jne a) :=
  of_fields (show operandCount Mnemonic.jne.opcode = 1 by decide) (show aluBit Mnemonic.jne.opcode = false by decide)
    (show setsPcBit Mnemonic.jne.opcode = true by decide)
theorem hlt : Statement .hlt :=
  of_fields (show operandCount Mnemonic.hlt.opcode = 0 by decide) (show aluBit Mnemonic.hlt.opcode = false by decide)
    (show setsPcBit Mnemonic.hlt.opcode = false by decide)

end Sys2Proof.Laws.Layout
end

