-- ==== Sys2Proof/Machine/Assembly.lean ====
section
/-! DEFINITION. The assembly notation of spec/30_encoding.md R95. No step reads it: it is how the spec, and a reader,
write an instruction. -/

namespace Sys2Proof

/-- The mnemonic in capitals, as 30_encoding.md R86 and spec/opcode_table.json spell it. -/
def Mnemonic.name : Mnemonic → String
  | .add => "ADD"
  | .sub => "SUB"
  | .mul => "MUL"
  | .div => "DIV"
  | .mod => "MOD"
  | .and => "AND"
  | .or => "OR"
  | .xor => "XOR"
  | .not => "NOT"
  | .shl => "SHL"
  | .shr => "SHR"
  | .cmp => "CMP"
  | .ldi => "LDI"
  | .prn => "PRN"
  | .push => "PUSH"
  | .pop => "POP"
  | .call => "CALL"
  | .ret => "RET"
  | .jmp => "JMP"
  | .jeq => "JEQ"
  | .jne => "JNE"
  | .hlt => "HLT"

/-- A register operand, `R0` to `R7`. -/
def registerText (a : Byte) : List Char := 'R' :: Nat.toDigits 10 a.toNat

/-- The operands, operand a first, separated by a comma; the immediate as a decimal numeral. -/
def Instr.operandText : Instr → List Char
  | .add a b | .sub a b | .mul a b | .div a b | .mod a b
  | .and a b | .or a b | .xor a b | .shl a b | .shr a b
  | .cmp a b => ' ' :: registerText a ++ ',' :: registerText b
  | .ldi a imm => ' ' :: registerText a ++ ',' :: Nat.toDigits 10 imm.toNat
  | .not a | .prn a | .push a | .pop a | .call a
  | .jmp a | .jeq a | .jne a => ' ' :: registerText a
  | .ret | .hlt => []

/-- The instruction in the notation of 30_encoding.md R95. The notation has no name for a register operand above 7, so
an ill-formed instruction has none. -/
def Instr.assembly (i : Instr) : Option (List Char) :=
  if i.wf then some (i.mnemonic.name.toList ++ i.operandText) else none

end Sys2Proof
end

