-- ==== Sys2Proof/Tests/Slice0.lean ====
section
/-! SUPPORT. Tests: the smoke test of WellFormed, every encoding written out, small one-step tests, and a witness for
every statement with hypotheses. Expected values are those of spec/95_test_vectors.md and spec/30_encoding.md. -/

namespace Sys2Proof.Tests

open Sys2Proof.Machine

/-! ## Helpers -/

/-- The reset state with some registers preset, PC at `addr`, code stored there, and some more cells stored. -/
def start (addr : Nat) (code : List Byte) (regs : List (RegIndex × Byte)) (cells : List (Nat × Byte)) : State :=
  { regs.foldl (fun s r => s.setReg r.1 r.2) State.reset with
    pc := BitVec.ofNat 9 addr
    mem := cells.foldl (fun m c => m.write c.1 c.2) (Memory.writeBytes [] addr code) }

/-- The same with flags `LGE`. -/
def startFl (fl : BitVec 3) (addr : Nat) (code : List Byte) (regs : List (RegIndex × Byte)) : State :=
  { start addr code regs [] with fl := Flags.ofBits fl }

/-- The step has a next state, and it passes the test. -/
def ends (s : State) (test : State → Bool) : Bool :=
  match step s with
  | .next t => test t
  | .fault _ => false
  | .refused _ => false

/-- The step ends in the fault state that 60_exceptions.md R228 and R229 describe, with this record. -/
def faults (s : State) (kind : FaultKind) (ir : Byte) (info : Option Int) : Bool :=
  ends s fun t => t == { s with ir := ir, run := .faulted ⟨kind, s.pc, ir, info⟩ }

/-- The instruction that a list of bytes decodes to, when nothing is left over. -/
def decoded (bytes : List Byte) : Option Instr :=
  match decode bytes with
  | .ok (i, []) => some i
  | .ok (_, _ :: _) => none
  | .error _ => none

/-! ## WellFormed refuses an ill-formed term, once for each check -/

theorem test_wf_accepts_seven : WellFormed (.add 7 7) := by decide
theorem test_wf_accepts_any_immediate : WellFormed (.ldi 0 0xFF) := by decide
theorem test_wf_accepts_no_operand : WellFormed .ret ∧ WellFormed .hlt := by decide
theorem test_wf_refuses_operand_a_of_two : ¬ WellFormed (.add 8 0) := by decide
theorem test_wf_refuses_operand_b_of_two : ¬ WellFormed (.cmp 0 8) := by decide
theorem test_wf_refuses_the_one_operand : ¬ WellFormed (.push 0xFF) := by decide
theorem test_wf_refuses_register_beside_an_immediate : ¬ WellFormed (.ldi 8 0) := by decide

/-! ## Every encoding of 30_encoding.md R86, written out bit by bit -/

theorem test_decode_add : decoded [0b10100000#8, 0b00000011#8, 0b00000101#8] = some (.add 3 5) := by decide
theorem test_decode_sub : decoded [0b10100001#8, 0b00000011#8, 0b00000101#8] = some (.sub 3 5) := by decide
theorem test_decode_mul : decoded [0b10100010#8, 0b00000011#8, 0b00000101#8] = some (.mul 3 5) := by decide
theorem test_decode_div : decoded [0b10100011#8, 0b00000011#8, 0b00000101#8] = some (.div 3 5) := by decide
theorem test_decode_mod : decoded [0b10100100#8, 0b00000011#8, 0b00000101#8] = some (.mod 3 5) := by decide
theorem test_decode_cmp : decoded [0b10100111#8, 0b00000011#8, 0b00000101#8] = some (.cmp 3 5) := by decide
theorem test_decode_and : decoded [0b10101000#8, 0b00000011#8, 0b00000101#8] = some (.and 3 5) := by decide
theorem test_decode_or : decoded [0b10101010#8, 0b00000011#8, 0b00000101#8] = some (.or 3 5) := by decide
theorem test_decode_xor : decoded [0b10101011#8, 0b00000011#8, 0b00000101#8] = some (.xor 3 5) := by decide
theorem test_decode_shl : decoded [0b10101100#8, 0b00000011#8, 0b00000101#8] = some (.shl 3 5) := by decide
theorem test_decode_shr : decoded [0b10101101#8, 0b00000011#8, 0b00000101#8] = some (.shr 3 5) := by decide
theorem test_decode_ldi : decoded [0b10000010#8, 0b00000011#8, 0b00000101#8] = some (.ldi 3 5) := by decide
theorem test_decode_not : decoded [0b01101001#8, 0b00000110#8] = some (.not 6) := by decide
theorem test_decode_prn : decoded [0b01000111#8, 0b00000110#8] = some (.prn 6) := by decide
theorem test_decode_push : decoded [0b01000101#8, 0b00000110#8] = some (.push 6) := by decide
theorem test_decode_pop : decoded [0b01000110#8, 0b00000110#8] = some (.pop 6) := by decide
theorem test_decode_call : decoded [0b01010000#8, 0b00000110#8] = some (.call 6) := by decide
theorem test_decode_jmp : decoded [0b01010100#8, 0b00000110#8] = some (.jmp 6) := by decide
theorem test_decode_jeq : decoded [0b01010101#8, 0b00000110#8] = some (.jeq 6) := by decide
theorem test_decode_jne : decoded [0b01010110#8, 0b00000110#8] = some (.jne 6) := by decide
theorem test_decode_ret : decoded [0b00010001#8] = some .ret := by decide
theorem test_decode_hlt : decoded [0b00000001#8] = some .hlt := by decide

/-- The document's one encoded program, `LDI R0,8; PRN R0; HLT` (95_test_vectors.md E8). -/
theorem test_decode_the_document_program :
    decode [0b10000010#8, 0b00000000#8, 0b00001000#8, 0b01000111#8, 0b00000000#8, 0b00000001#8] =
      .ok (.ldi 0 8, [0b01000111#8, 0b00000000#8, 0b00000001#8]) := by decide
theorem test_decode_keeps_the_whole_operand_byte : decoded [0x69#8, 0xFF#8] = some (.not 0xFF) := by decide
theorem test_decode_no_opcode : decode [] = .error .noOpcode := by decide
theorem test_decode_operand_missing : decode [0x82#8, 0x00#8] = .error (.operandsMissing 0x82#8) := by decide
/-- `AA = 3` is no instruction (95_test_vectors.md section 2.10). -/
theorem test_decode_refuses_three_operands : decode [0xC0#8, 0, 0, 0] = .error (.unsupported (.dispatch 0xC0#8)) := by
  decide
/-- HLT's identifier with a wrong count is not HLT. -/
theorem test_decode_refuses_41 : decode [0x41#8, 0] = .error (.unsupported (.dispatch 0x41#8)) := by decide
/-- INC's usual number is no instruction of this hardware. -/
theorem test_decode_refuses_65 : decode [0x65#8, 0] = .error (.unsupported (.alu 0x65#8)) := by decide
/-- 22, 116 and 118 opcode bytes (95_test_vectors.md section 2.10). -/
theorem test_decode_supports_22 : (Claims.allBytes.filter fun ir => (decodeOpcode ir).isOk).length = 22 := by decide
theorem test_no_two_rows_share_a_byte : (Mnemonic.all.map Mnemonic.opcode).Nodup := by decide

/-! ## The assembly notation (30_encoding.md R95) -/

theorem test_assembly_ldi : (Instr.ldi 0 8).assembly = some "LDI R0,8".toList := by decide
theorem test_assembly_none_for_register_8 : (Instr.add 8 0).assembly = none := by decide

/-! ## The names the host asks about -/

theorem test_table_word : decodeTableWord 24 0x050382 = some (.ldi 3 5) := by decide
theorem test_table_word_short : decodeTableWord 8 0x82 = some (.ldi 0 0) := by decide
theorem test_fetch_word : ends (State.reset.withFetchWord 24 0x080082) (fun t => t.reg 0 == 8 && t.pc == 3) = true := by
  decide
theorem test_fetch_word_changes_only_memory :
    { State.reset.withFetchWord 24 0x080082 with mem := [] } = State.reset := by decide
theorem test_core_reset : Sys2Proof.core.reset = State.reset := rfl

/-! ## ALU (95_test_vectors.md sections 2.1 to 2.4) -/

theorem test_add_C8_64 : ends (start 0 [0xA0, 0, 1] [(0, 0xC8), (1, 0x64)] [])
    (fun t => t.reg 0 == 0x2C && t.reg 1 == 0x64 && t.pc == 3) = true := by decide
theorem test_sub_0A_14 : ends (start 0 [0xA1, 0, 1] [(0, 0x0A), (1, 0x14)] [])
    (fun t => t.reg 0 == 0xF6 && t.reg 1 == 0x14 && t.pc == 3) = true := by decide
theorem test_sub_80_01 : ends (start 0 [0xA1, 0, 1] [(0, 0x80), (1, 0x01)] [])
    (fun t => t.reg 0 == 0x7F && t.reg 1 == 0x01 && t.pc == 3) = true := by decide
theorem test_mul_FF_FF : ends (start 0 [0xA2, 0, 1] [(0, 0xFF), (1, 0xFF)] [])
    (fun t => t.reg 0 == 0x01 && t.reg 1 == 0xFF && t.pc == 3) = true := by decide
theorem test_mul_0C_0C : ends (start 0 [0xA2, 0, 1] [(0, 0x0C), (1, 0x0C)] [])
    (fun t => t.reg 0 == 0x90 && t.reg 1 == 0x0C && t.pc == 3) = true := by decide
theorem test_div_07_02 : ends (start 0 [0xA3, 0, 1] [(0, 0x07), (1, 0x02)] [])
    (fun t => t.reg 0 == 0x03 && t.reg 1 == 0x02 && t.pc == 3) = true := by decide
theorem test_mod_C8_07 : ends (start 0 [0xA4, 0, 1] [(0, 0xC8), (1, 0x07)] [])
    (fun t => t.reg 0 == 0x04 && t.reg 1 == 0x07 && t.pc == 3) = true := by decide
theorem test_and_F0_3C : ends (start 0 [0xA8, 0, 1] [(0, 0xF0), (1, 0x3C)] [])
    (fun t => t.reg 0 == 0x30 && t.reg 1 == 0x3C && t.pc == 3) = true := by decide
theorem test_or_F0_3C : ends (start 0 [0xAA, 0, 1] [(0, 0xF0), (1, 0x3C)] [])
    (fun t => t.reg 0 == 0xFC && t.reg 1 == 0x3C && t.pc == 3) = true := by decide
theorem test_xor_F0_3C : ends (start 0 [0xAB, 0, 1] [(0, 0xF0), (1, 0x3C)] [])
    (fun t => t.reg 0 == 0xCC && t.reg 1 == 0x3C && t.pc == 3) = true := by decide
theorem test_shl_81_01 : ends (start 0 [0xAC, 0, 1] [(0, 0x81), (1, 0x01)] [])
    (fun t => t.reg 0 == 0x02 && t.reg 1 == 0x01 && t.pc == 3) = true := by decide
theorem test_shl_FF_FF : ends (start 0 [0xAC, 0, 1] [(0, 0xFF), (1, 0xFF)] [])
    (fun t => t.reg 0 == 0x00 && t.reg 1 == 0xFF && t.pc == 3) = true := by decide
theorem test_shr_81_01 : ends (start 0 [0xAD, 0, 1] [(0, 0x81), (1, 0x01)] [])
    (fun t => t.reg 0 == 0x40 && t.reg 1 == 0x01 && t.pc == 3) = true := by decide
theorem test_shr_FF_C8 : ends (start 0 [0xAD, 0, 1] [(0, 0xFF), (1, 0xC8)] [])
    (fun t => t.reg 0 == 0x00 && t.reg 1 == 0xC8 && t.pc == 3) = true := by decide
theorem test_div_by_zero : faults (start 0 [0xA3, 0, 1] [(0, 7)] []) .divisionByZero 0xA3 none = true := by decide
theorem test_mod_by_zero : faults (start 0 [0xA4, 0, 1] [(0, 7)] []) .divisionByZero 0xA4 none = true := by decide
theorem test_not : ends (start 0 [0x69, 3] [(3, 0xA5)] []) (fun t => t.reg 3 == 0x5A && t.pc == 2) = true := by decide
theorem test_not_index_is_the_whole_byte :
    faults (start 0 [0x69, 0xFF] [] []) .invalidRegister 0x69 (some 255) = true := by decide
/-- 128 is greater than 127: the comparison is unsigned. -/
theorem test_cmp_greater : ends (startFl 0b100 0 [0xA7, 0, 1] [(0, 0x80), (1, 0x7F)])
    (fun t => t.fl.toBits == 0b010 && t.reg 0 == 0x80 && t.pc == 3) = true := by decide
theorem test_cmp_equal : ends (startFl 0b010 0 [0xA7, 0, 1] [(0, 5), (1, 5)]) (fun t => t.fl.toBits == 0b001) = true := by
  decide
theorem test_operand_a_reported_before_b :
    faults (start 0 [0xA0, 9, 0xC8] [] []) .invalidRegister 0xA0 (some 9) = true := by decide

/-! ## LDI and PRN (section 2.5) -/

theorem test_ldi_moves_the_stack_pointer : ends (start 0 [0x82, 7, 0x80] [] []) (fun t => t.sp == 0x80 && t.pc == 3) = true := by
  decide
theorem test_prn : ends (start 0 [0x47, 7] [] []) (fun t => t.out == [244] && t.rendered == ['2', '4', '4', '\n'] && t.pc == 2)
    = true := by decide
theorem test_prn_bad_register : faults (start 0 [0x47, 8] [] []) .invalidRegister 0x47 (some 8) = true := by decide

/-! ## PUSH and POP (section 2.6) -/

theorem test_push_sp : ends (start 0 [0x45, 7] [] []) (fun t => t.sp == 0xF3 && t.mem.read 0xF3 == 0xF3 && t.pc == 2) = true := by
  decide
theorem test_push_at_zero : faults (start 0 [0x45, 0] [(0, 0x11), (7, 0)] []) .outOfBounds 0x45 (some (-1)) = true := by
  decide
theorem test_pop_sp : ends (start 0 [0x46, 7] [(7, 0xF3)] [(0xF3, 0x20)]) (fun t => t.sp == 0x21 && t.pc == 2) = true := by
  decide
theorem test_pop_past_the_top :
    faults (start 0 [0x46, 0] [(7, 0xFF)] [(0xFF, 0x77)]) .outOfBounds 0x46 (some 256) = true := by decide

/-! ## CALL, RET, JMP, JEQ and JNE (sections 2.7 and 2.8) -/

theorem test_call_sp : ends (start 0x10 [0x50, 7] [] []) (fun t => t.sp == 0xF3 && t.mem.read 0xF3 == 0x12 && t.pc == 0xF3)
    = true := by decide
theorem test_call_return_address_wraps : ends (start 0xFE [0x50, 1] [(1, 0x30)] [])
    (fun t => t.mem.read 0xF3 == 0 && t.pc == 0x30) = true := by decide
theorem test_ret : ends (start 0x30 [0x11] [(7, 0xF3)] [(0xF3, 0x12)]) (fun t => t.sp == 0xF4 && t.pc == 0x12) = true := by
  decide
theorem test_ret_empty : faults (start 0x30 [0x11] [] []) .emptyStack 0x11 none = true := by decide
theorem test_jmp : ends (start 4 [0x54, 2] [(2, 0xFF)] []) (fun t => t.pc == 0xFF) = true := by decide
theorem test_jmp_bad_register : faults (start 4 [0x54, 8] [] []) .invalidRegister 0x54 (some 8) = true := by decide
theorem test_jeq_taken : ends (startFl 0b001 4 [0x55, 2] [(2, 0x40)]) (fun t => t.pc == 0x40) = true := by decide
theorem test_jeq_checks_before_the_flag :
    faults (startFl 0b010 4 [0x55, 8] []) .invalidRegister 0x55 (some 8) = true := by decide
theorem test_jne_taken : ends (startFl 0b000 4 [0x56, 2] [(2, 0x40)]) (fun t => t.pc == 0x40) = true := by decide
theorem test_jne_not_taken_at_the_top : ends (startFl 0b001 0xFE [0x56, 2] [(2, 0x40)]) (fun t => t.pc == 0x100) = true := by
  decide

/-! ## HLT, decode and the top of the address space (sections 2.9 to 2.11) -/

theorem test_hlt_at_the_top : ends (start 0xFF [1] [] []) (fun t => t.run == .halted && t.pc == 0x100 && t.ir == 1) = true := by
  decide
theorem test_unsupported_zero : faults State.reset .unsupportedInstruction 0 (some 0) = true := by decide
theorem test_unsupported_before_operands :
    faults (start 0xFF [0xA5] [] []) .unsupportedALUOperation 0xA5 (some 0xA5) = true := by decide
theorem test_operand_b_out_of_memory : faults (start 0xFE [0x82, 0] [] []) .outOfBounds 0x82 (some 256) = true := by decide
theorem test_fetch_out_of_memory_keeps_ir :
    faults { State.reset with pc := 256, ir := 0x82 } .outOfBounds 0x82 (some 256) = true := by decide
theorem test_last_place_of_three_bytes : ends (start 0xFD [0x82, 0, 1] [] []) (fun t => t.reg 0 == 1 && t.pc == 0x100) = true := by
  decide


/-! ## Witnesses

One theorem for each statement with hypotheses: a state and operands that meet all of them together, and for a statement
of several clauses one for each clause, at the ends of its range. -/

/-- The three cases of a register operand byte, at the ends of their ranges: 0 and 7 name a register, 8 and 255 do not. -/
abbrev oneRegisterOperand : Prop :=
  (0#8).toNat = (0 : RegIndex).val ∧ (7#8).toNat = (7 : RegIndex).val ∧ 7 < (8#8).toNat ∧ 7 < (255#8).toNat

/-- The cases of two register operands: both named, `a` above 7, and `a` at most 7 with `b` above 7. -/
abbrev twoRegisterOperands : Prop :=
  ((7#8).toNat = (7 : RegIndex).val ∧ (0#8).toNat = (0 : RegIndex).val) ∧ 7 < (8#8).toNat ∧
    ((7#8).toNat ≤ 7 ∧ 7 < (8#8).toNat) ∧ ((0#8).toNat ≤ 7 ∧ 7 < (255#8).toNat)

theorem witness_StepExecutesTheDecodedInstruction :
    State.run (start 0xFD [0x82, 0, 8] [] []) = .running ∧
      decode (start 0xFD [0x82, 0, 8] [] []).codeBytes = .ok (.ldi 0 8, []) ∧
      State.run (start 0xFF [0x01] [] []) = .running ∧
      decode (start 0xFF [0x01] [] []).codeBytes = .ok (.hlt, []) := by decide

theorem witness_StepExistsExactlyWhileRunning :
    State.reset.run = .running ∧ State.run { State.reset with run := .halted } = .halted ∧
      State.run (raise .emptyStack State.reset) = .faulted ⟨.emptyStack, 0, 0, none⟩ := by decide

theorem witness_OpcodeFetch_out_of_memory :
    State.run { State.reset with pc := 256 } = .running ∧ 255 < (State.pc { State.reset with pc := 256 }).toNat := by decide
theorem witness_OpcodeFetch_instruction :
    (start 0xFF [0x01] [] []).run = .running ∧ (start 0xFF [0x01] [] []).pc.toNat ≤ 255 ∧
      fetchInstr ((start 0xFF [0x01] [] []).setIr 0x01) = .ok .hlt ∧
      ∃ t, step (start 0xFF [0x01] [] []) = .next t := ⟨by decide, by decide, by decide, _, rfl⟩
theorem witness_OpcodeFetch_fault :
    (start 0xFF [0x47] [] []).run = .running ∧ (start 0xFF [0x47] [] []).pc.toNat ≤ 255 ∧
      fetchInstr ((start 0xFF [0x47] [] []).setIr 0x47) = .error (.outOfBounds 256) := by decide

theorem witness_UnsupportedDispatchOpcodesFault :
    State.reset.run = .running ∧ State.reset.pc.toNat ≤ 255 ∧ aluBit (State.reset.mem.read State.reset.pc.toNat) = false ∧
      State.reset.mem.read State.reset.pc.toNat ∉ Claims.handlerOpcodes ∧
      ∃ t, step State.reset = .next t ∧ Claims.inFault t .unsupportedInstruction :=
  ⟨by decide, by decide, by decide, by decide, _, rfl, _, rfl, rfl⟩
theorem witness_UnsupportedAluOpcodesFault :
    (start 0xFF [0xA5] [] []).run = .running ∧ (start 0xFF [0xA5] [] []).pc.toNat ≤ 255 ∧
      aluBit ((start 0xFF [0xA5] [] []).mem.read 0xFF) = true ∧
      (start 0xFF [0xA5] [] []).mem.read 0xFF ∉ Claims.aluOpcodes ∧
      ∃ t, step (start 0xFF [0xA5] [] []) = .next t ∧ Claims.inFault t .unsupportedALUOperation :=
  ⟨by decide, by decide, by decide, by decide, _, rfl, _, rfl, rfl⟩

/-- Operand b at 256, and operand a at 256. -/
theorem witness_OperandFetchPastTheTopFaults :
    ((start 0xFE [0x82, 0] [] []).run = .running ∧ (start 0xFE [0x82, 0] [] []).pc.toNat ≤ 255 ∧
      decodeOpcode ((start 0xFE [0x82, 0] [] []).mem.read 0xFE) = .ok .ldi ∧
      255 < (start 0xFE [0x82, 0] [] []).pc.toNat + operandCount 0x82) ∧
    ((start 0xFF [0x69] [] []).run = .running ∧ decodeOpcode ((start 0xFF [0x69] [] []).mem.read 0xFF) = .ok .not ∧
      255 < (start 0xFF [0x69] [] []).pc.toNat + operandCount 0x69) := by decide

theorem witness_Advance_completed :
    (start 0xFD [0x82, 0, 8] [] []).run = .running ∧
      ∃ t, step (start 0xFD [0x82, 0, 8] [] []) = .next t ∧ t.notFaulted ∧
        setsPcBit ((start 0xFD [0x82, 0, 8] [] []).mem.read 0xFD) = false ∧ t.pc = 256 :=
  ⟨by decide, _, rfl, (fun _ h => nomatch h), by decide, by decide⟩
theorem witness_Advance_raised :
    ∃ t r, step State.reset = .next t ∧ t.run = .faulted r := ⟨_, _, rfl, rfl⟩

/-! The rules of the ALU operations: the operand cases, and a completed instance of each shape. -/

theorem witness_AddSubMulRules : twoRegisterOperands ∧
    ∃ t, exec (.add 7 0) (start 0 [] [(7, 0xFF), (0, 1)] []) = .next t ∧ t.reg 7 = 0 ∧ t.pc = 3 :=
  ⟨by decide, _, rfl, by decide, by decide⟩
theorem witness_AndOrXorRules : twoRegisterOperands ∧
    (Instr.and 7 0, 0xA8#8) = (Instr.and 7 0, 0xA8#8) ∧ (Instr.or 7 0, 0xAA#8) = (Instr.or 7 0, 0xAA#8) ∧
      (Instr.xor 7 0, 0xAB#8) = (Instr.xor 7 0, 0xAB#8) := by decide
theorem witness_DivModResults : twoRegisterOperands ∧ ((start 0 [] [(0, 1)] []).reg 0).toNat ≠ 0 ∧
    ((start 0 [] [] []).reg 0).toNat = 0 := by decide
theorem witness_DivisionByZeroExactly : State.reset.notFaulted ∧
    ∃ t, exec (.mod 7 0) State.reset = .next t ∧ Claims.inFault t .divisionByZero :=
  ⟨(fun _ h => nomatch h), _, rfl, _, rfl, rfl⟩
theorem witness_NotResult : oneRegisterOperand := by decide
/-- Counts 0, 7, 8 and 255. -/
theorem witness_ShiftResults : twoRegisterOperands ∧ ((start 0 [] [] []).reg 0).toNat ≤ 0 ∧
    ((start 0 [] [(0, 7)] []).reg 0).toNat < 8 ∧ 8 ≤ ((start 0 [] [(0, 8)] []).reg 0).toNat ∧
    8 ≤ ((start 0 [] [(0, 255)] []).reg 0).toNat := by decide
/-- Each flag is set by some operands. -/
theorem witness_CompareResult : twoRegisterOperands ∧ compareFlags 0 255 = ⟨true, false, false⟩ ∧
    compareFlags 255 0 = ⟨false, true, false⟩ ∧ compareFlags 255 255 = ⟨false, false, true⟩ := by decide
theorem witness_OnlyCompareWritesFlags : Claims.aluDestination (.add 7 0) = some 7 ∧
    (∃ t, exec (.add 7 0) State.reset = .next t) ∧ ∃ t, exec (.cmp 7 7) State.reset = .next t ∧ t.fl ≠ State.reset.fl :=
  ⟨rfl, ⟨_, rfl⟩, _, rfl, by decide⟩
theorem witness_FlagsWrittenByCompareReadAsEqual :
    (∃ t, exec (.cmp 7 0) State.reset = .next t ∧ t.fl ≠ State.reset.fl ∧ (7#8).toNat ≤ 7 ∧ (0#8).toNat ≤ 7) ∧
    ((∀ a b, Instr.ret ≠ .cmp a b) ∧ (∀ a, Instr.ret ≠ .jeq a) ∧ ∀ a, Instr.ret ≠ .jne a) ∧
    (⟨true, true, false⟩ : Flags).e = State.reset.fl.e :=
  ⟨⟨_, rfl, by decide, by decide, by decide⟩, ⟨by simp, by simp, by simp⟩, by decide⟩
/-- A register of value 0, of a value below 8 and of a value of at least 8. -/
theorem witness_SameRegisterTwice : (0#8).toNat = (0 : RegIndex).val ∧ (7#8).toNat = (7 : RegIndex).val ∧
    (State.reset.reg 0).toNat = 0 ∧ ((start 0 [] [(0, 7)] []).reg 0).toNat < 8 ∧ ¬ (State.reset.reg 7).toNat < 8 := by
  decide

/-! Data movement, output and the stack. -/

theorem witness_LoadImmediateRule : oneRegisterOperand := by decide
theorem witness_PrintRule : oneRegisterOperand ∧ ∃ t, exec (.prn 7) State.reset = .next t ∧
    outPort State.reset t = some 0xF4 := ⟨by decide, _, rfl, by decide⟩
theorem witness_OutputIsAppendedByPrintAndNeverRead :
    ∃ t, exec (.prn 7) State.reset = .next t ∧ t.out ≠ State.reset.out := ⟨_, rfl, by decide⟩
/-- SP 1 and 255 push; SP 0 does not. -/
theorem witness_PushResult : oneRegisterOperand ∧ (start 0 [] [(7, 1)] []).reg 7 ≠ 0#8 ∧
    (start 0 [] [(7, 0xFF)] []).reg 7 ≠ 0#8 ∧ (start 0 [] [(7, 0)] []).reg 7 = 0#8 := by decide
/-- `SP = 0xF4`; SP 0, 0xF3, 0xF5 and 0xFE; SP 0xFF; and for `POP R7` a byte 0xFE and a byte 0xFF, at SP 0 and 0xFF. -/
theorem witness_PopResult : oneRegisterOperand ∧ State.reset.reg 7 = 0xF4#8 ∧
    (∀ sp ∈ [0#8, 0xF3#8, 0xF5#8, 0xFE#8], (start 0 [] [(7, sp)] []).reg 7 ≠ 0xF4#8 ∧
      (start 0 [] [(7, sp)] []).reg 7 ≠ 0xFF#8) ∧
    (start 0 [] [(7, 0xFF)] []).reg 7 = 0xFF#8 ∧
    (start 0 [] [(7, 0xFF)] [(0xFF, 0xFE)]).mem.read 0xFF ≠ 0xFF#8 ∧
    (start 0 [] [(7, 0)] [(0, 0xFF)]).mem.read 0 = 0xFF#8 := by decide
theorem witness_PushThenPopRestores : (start 0 [] [] []).mem.wf ∧ (0#8).toNat = (0 : RegIndex).val ∧
    (6#8).toNat = (6 : RegIndex).val ∧ (0 : RegIndex) ≠ 7 ∧ (6 : RegIndex) ≠ 7 ∧
    (∀ sp ∈ [1#8, 0xF4#8, 0xF6#8, 0xFF#8], (start 0 [] [(7, sp)] []).reg 7 ≠ 0#8 ∧
      (start 0 [] [(7, sp)] []).reg 7 ≠ 0xF5#8) := by decide

/-! Control transfer and system. -/

theorem witness_CallResult : oneRegisterOperand ∧ (start 0 [] [(7, 1)] []).reg 7 ≠ 0#8 ∧
    (start 0 [] [(7, 0)] []).reg 7 = 0#8 := by decide
theorem witness_ReturnResult : State.reset.reg 7 = 0xF4#8 ∧ (start 0 [] [(7, 0xFF)] []).reg 7 = 0xFF#8 ∧
    (∀ sp ∈ [0#8, 0xF3#8, 0xF5#8, 0xFE#8], (start 0 [] [(7, sp)] []).reg 7 ≠ 0xF4#8 ∧
      (start 0 [] [(7, sp)] []).reg 7 ≠ 0xFF#8) := by decide
theorem witness_ReturnResumesAfterTheCall : State.reset.mem.wf ∧ (7#8).toNat = (7 : RegIndex).val ∧
    State.reset.reg 7 ≠ 0#8 ∧ State.reset.reg 7 ≠ 0xF5#8 ∧
    ∃ t, exec (.call 7) State.reset = .next t ∧ ∃ u : State, u.reg 7 = t.reg 7 ∧
      u.mem.read (u.reg 7).toNat = t.mem.read (t.reg 7).toNat :=
  ⟨by decide, by decide, by decide, by decide, _, rfl, _, rfl, rfl⟩
theorem witness_JumpRule : oneRegisterOperand := by decide
theorem witness_ConditionalJumpResults : oneRegisterOperand ∧ State.reset.fl.e = false ∧
    (startFl 0b001 0 [] []).fl.e = true := by decide
theorem witness_CompareThenConditionalJump : (0#8).toNat = (0 : RegIndex).val ∧ (6#8).toNat = (6 : RegIndex).val ∧
    (7#8).toNat = (7 : RegIndex).val ∧ State.reset.reg 0 = State.reset.reg 6 ∧ State.reset.reg 0 ≠ State.reset.reg 7 := by
  decide
theorem witness_HaltedOnlyByHalt : (start 0xFF [1] [] []).run = .running ∧
    ∃ t, step (start 0xFF [1] [] []) = .next t ∧ t.run = .halted := ⟨by decide, _, rfl, rfl⟩

/-! Frames. -/

theorem witness_AluFrame : Claims.aluDestination (.shr 7 0) = some 7 ∧ ∃ t, exec (.shr 7 0) State.reset = .next t :=
  ⟨rfl, _, rfl⟩
/-- One for each clause: completed, and raising. -/
theorem witness_RegisterOnlyFrame :
    (∃ t, exec (.ldi 7 1) State.reset = .next t ∧ t.notFaulted) ∧ (∃ t, exec (.ldi 8 1) State.reset = .next t) ∧
    (∃ t, exec (.cmp 0 7) State.reset = .next t) ∧ (∃ t, exec (.prn 0) State.reset = .next t) ∧
    (∃ t, exec (.jmp 0) State.reset = .next t) ∧ (∃ t, exec (.jeq 0) State.reset = .next t) ∧
    (∃ t, exec (.jne 0) State.reset = .next t) ∧ ∃ t, exec .hlt State.reset = .next t :=
  ⟨⟨_, rfl, fun _ h => nomatch h⟩, ⟨_, rfl⟩, ⟨_, rfl⟩, ⟨_, rfl⟩, ⟨_, rfl⟩, ⟨_, rfl⟩, ⟨_, rfl⟩, _, rfl⟩
/-- The clause about a raise: a CMP, a PRN and a JMP that raise from a state that is not faulted. -/
theorem witness_RegisterOnlyFrame_raise : State.reset.notFaulted ∧
    (∃ t r, exec (.cmp 0 8) State.reset = .next t ∧ t.run = .faulted r) ∧
    (∃ t r, exec (.prn 8) State.reset = .next t ∧ t.run = .faulted r) ∧
    ∃ t r, exec (.jmp 8) State.reset = .next t ∧ t.run = .faulted r :=
  ⟨(fun _ h => nomatch h), ⟨_, _, rfl, rfl⟩, ⟨_, _, rfl, rfl⟩, _, _, rfl, rfl⟩
/-- A push and a call that store, a push that raises, a pop and a return. -/
theorem witness_StackFrame :
    (∃ t, exec (.push 0) State.reset = .next t ∧ pushAddress State.reset = .ok 0xF3) ∧
    (∃ t, exec (.call 0) State.reset = .next t ∧ pushAddress State.reset = .ok 0xF3) ∧
    (∃ t, exec (.push 0) (start 0 [] [(7, 0)] []) = .next t ∧
      pushAddress (start 0 [] [(7, 0)] []) = .error (.outOfBounds (-1))) ∧
    (∃ t, exec (.pop 0) (start 0 [] [(7, 0xF3)] []) = .next t ∧ t.notFaulted) ∧
    (∃ t, exec .ret (start 0 [] [(7, 0xF3)] []) = .next t ∧ t.notFaulted) :=
  ⟨⟨_, rfl, by decide⟩, ⟨_, rfl, by decide⟩, ⟨_, rfl, by decide⟩, ⟨_, rfl, fun _ h => nomatch h⟩,
    _, rfl, fun _ h => nomatch h⟩
/-- A push whose store is at its own opcode byte. -/
theorem witness_OnlyPushAndCallWriteMemory : (start 0 [0x45, 0] [(0, 0x11), (7, 1)] []).run = .running ∧
    ∃ t, step (start 0 [0x45, 0] [(0, 0x11), (7, 1)] []) = .next t ∧
      t.mem.read 0 ≠ (start 0 [0x45, 0] [(0, 0x11), (7, 1)] []).mem.read 0 := ⟨by decide, _, rfl, by decide⟩
/-- The store of a PUSH at 2 stands at the next PC, and `CALL R7` jumps to the byte it stored. -/
theorem witness_StoredByteIsFetchedNext :
    ((start 0 [] [(0, 1), (7, 3)] []).mem.wf ∧ (start 0 [] [(0, 1), (7, 3)] []).run = .running ∧
      (0#8).toNat = (0 : RegIndex).val ∧ pushAddress (start 0 [] [(0, 1), (7, 3)] []) = .ok 2 ∧
      ∃ t u, exec (.push 0) (start 0 [] [(0, 1), (7, 3)] []) = .next t ∧ t.pc.toNat = 2 ∧ step t = .next u) ∧
    ∃ t u, exec (.call 7) State.reset = .next t ∧ pushAddress State.reset = .ok 0xF3 ∧ t.pc.toNat = 0xF3 ∧
      step t = .next u :=
  ⟨⟨by decide, by decide, by decide, by decide, _, _, rfl, by decide, rfl⟩, _, _, rfl, by decide, by decide, rfl⟩

/-! Faults. -/

theorem witness_FaultsArePrecise :
    (∃ t r, step State.reset = .next t ∧ t.run = .faulted r ∧ State.reset.pc.toNat ≤ 255) ∧
    ∃ t r, step { State.reset with pc := 256 } = .next t ∧ t.run = .faulted r :=
  ⟨⟨_, _, rfl, rfl, by decide⟩, _, _, rfl, rfl⟩
/-- `JEQ` of register byte 8 that would not jump; and LDI of the immediate 255. -/
theorem witness_InvalidRegisterExactly : State.reset.notFaulted ∧
    (∃ t, exec (.jeq 8) State.reset = .next t ∧ Claims.inFault t .invalidRegister ∧ ¬ WellFormed (.jeq 8)) ∧
    ∃ t, exec (.ldi 7 255) State.reset = .next t ∧ WellFormed (.ldi 7 255) :=
  ⟨(fun _ h => nomatch h), ⟨_, rfl, ⟨_, rfl, rfl⟩, by decide⟩, _, rfl, by decide⟩
theorem witness_EmptyStackExactly : State.reset.notFaulted ∧
    (∃ t, exec (.pop 7) State.reset = .next t ∧ Claims.inFault t .emptyStack) ∧
    ∃ t, exec .ret State.reset = .next t ∧ Claims.inFault t .emptyStack :=
  ⟨(fun _ h => nomatch h), ⟨_, rfl, _, rfl, rfl⟩, _, rfl, _, rfl, rfl⟩
theorem witness_FaultPortShowsTheKind : State.endedWell { State.reset with run := .halted } ∧
    (raise .emptyStack State.reset).run = .faulted ⟨.emptyStack, 0, 0, none⟩ := ⟨rfl, rfl⟩
theorem witness_InstructionRegisterIsContextOnly :
    ∃ t, exec (.push 7) State.reset = .next t ∧ t.notFaulted := ⟨_, rfl, fun _ h => nomatch h⟩

/-! Memory, reset and the invariant. -/

/-- The empty memory, one with cells at both ends, and addresses -1, 0, 255 and 256. -/
theorem witness_MemoryReadAndWritePrimitives : State.reset.mem.wf ∧ Memory.wf [(0, 1#8), (255, 2#8)] ∧
    ((-1 : Int) < 0 ∨ 255 < (-1 : Int)) ∧ ((256 : Int) < 0 ∨ 255 < (256 : Int)) ∧ ((0 : Int) ≤ 0 ∧ (0 : Int) ≤ 255) ∧
    ((0 : Int) ≤ 255 ∧ (255 : Int) ≤ 255) := by decide
theorem witness_EqualReadsAreEqualMemories : Memory.wf [(0, 1#8), (255, 2#8)] ∧
    ∀ addr, addr < 256 → Memory.read [(0, 1#8), (255, 2#8)] addr = Memory.read [(0, 1#8), (255, 2#8)] addr :=
  ⟨by decide, fun _ _ => rfl⟩
/-- Lengths 0, 256 and 257. -/
theorem witness_ResetLoadsTheProgram : ([] : List Byte).length ≤ 256 ∧ (List.replicate 256 (1#8)).length ≤ 256 ∧
    256 < (List.replicate 257 (1#8)).length :=
  ⟨by decide, (List.length_replicate ..).le, by rw [List.length_replicate]; decide⟩
theorem witness_ResetSatisfiesTheInvariant : ∃ s, resetWith [0x01] = .next s := ⟨_, rfl⟩
theorem witness_StepKeepsTheInvariant : Inv State.reset ∧ ∃ t, step State.reset = .next t :=
  ⟨⟨by decide, by decide, by decide, fun _ h => nomatch h⟩, _, rfl⟩

end Sys2Proof.Tests
end

section
/-! PROOF. What reads and writes FL (spec/10_state.md R31). An instruction run with other flags does the same and keeps
those flags: replacing FL commutes with every update the model makes, so it commutes with every instruction but CMP,
which replaces FL itself, and JEQ and JNE, which need the same `E`. That nothing else writes FL is the same fact at the
flags the state already has. -/

namespace Sys2Proof.Machine

open Sys2Proof.Claims

/-! ## Replacing FL commutes with the updates and is not seen by the operations -/

@[simp] theorem setFl_setFl (s : State) (f g : Flags) : (s.setFl f).setFl g = s.setFl g := rfl
@[simp] theorem setReg_setFl (s : State) (f : Flags) (r : RegIndex) (v : Byte) :
    (s.setFl f).setReg r v = (s.setReg r v).setFl f := rfl
@[simp] theorem setSp_setFl (s : State) (f : Flags) (v : Byte) : (s.setFl f).setSp v = (s.setSp v).setFl f := rfl
@[simp] theorem setPc_setFl (s : State) (f : Flags) (p : PcWord) : (s.setFl f).setPc p = (s.setPc p).setFl f := rfl
@[simp] theorem advance_setFl (s : State) (f : Flags) (n : Nat) : (s.setFl f).advance n = (s.advance n).setFl f := rfl
@[simp] theorem emit_setFl (s : State) (f : Flags) (v : Byte) : (s.setFl f).emit v = (s.emit v).setFl f := rfl
@[simp] theorem pushAddress_setFl (s : State) (f : Flags) : pushAddress (s.setFl f) = pushAddress s := rfl
@[simp] theorem checkNotEmpty_setFl (s : State) (f : Flags) : checkNotEmpty (s.setFl f) = checkNotEmpty s := rfl
@[simp] theorem memRead_setFl (s : State) (f : Flags) (addr : Int) : memRead (s.setFl f) addr = memRead s addr := rfl

@[simp] theorem memWrite_setFl (s : State) (f : Flags) (addr v : Int) :
    memWrite (s.setFl f) addr v = (·.setFl f) <$> memWrite s addr v := by
  unfold memWrite
  split <;> rfl

/-! ## Replacing FL commutes with the instructions -/

/-- Work that comes out with its FL replaced, begun in the state with FL replaced: a completed instruction and a raise
alike give the outcome with FL replaced. -/
theorem orRaise_setFl {s : State} {f : Flags} {r r' : Except Cause State} (h : r' = (·.setFl f) <$> r) :
    orRaise (s.setFl f) r' = withFlags f (orRaise s r) := by
  subst h
  cases r <;> rfl

/-- The two conditional jumps test `E` alone. -/
theorem equalFlag_setFl {s : State} {f : Flags} (h : f.e = s.fl.e) : (s.setFl f).equalFlag = s.equalFlag := h

theorem execJeq_setFl (a : Byte) {s : State} {f : Flags} (h : f.e = s.fl.e) :
    execJeq a (s.setFl f) = withFlags f (execJeq a s) :=
  orRaise_setFl (by simp [equalFlag_setFl h, apply_ite (State.setFl · f)])

theorem execJne_setFl (a : Byte) {s : State} {f : Flags} (h : f.e = s.fl.e) :
    execJne a (s.setFl f) = withFlags f (execJne a s) :=
  orRaise_setFl (by simp [equalFlag_setFl h, apply_ite (State.setFl · f)])

/-- With other flags, of the same `E` for JEQ and JNE, an instruction other than CMP does the same and leaves them.
All but the last few arms are one `orRaise` whose reads do not see FL and whose writes commute with replacing it. -/
theorem exec_setFl {i : Instr} {s : State} {f : Flags} (hcmp : ∀ a b, i ≠ .cmp a b)
    (he : ∀ a, i = .jeq a ∨ i = .jne a → f.e = s.fl.e) : exec i (s.setFl f) = withFlags f (exec i s) := by
  cases i with
  | add | sub | mul | div | mod | and | or | xor | not | shl | shr | ldi | prn | push | pop | call | ret | jmp =>
    exact orRaise_setFl (by simp)
  | cmp a b => exact absurd rfl (hcmp a b)
  | jeq a => exact execJeq_setFl a (he a (.inl rfl))
  | jne a => exact execJne_setFl a (he a (.inr rfl))
  | hlt => rfl

/-- Only CMP writes FL: any other instruction, run with the flags the state has, leaves those flags. -/
theorem exec_keeps_fl {i : Instr} {s t : State} (hcmp : ∀ a b, i ≠ .cmp a b) (h : exec i s = .next t) :
    t.fl = s.fl := by
  have hsame : exec i s = withFlags s.fl (exec i s) := exec_setFl hcmp fun _ _ => rfl
  have ht : t = t.setFl s.fl := Host.Outcome.next.inj (by rwa [h] at hsame)
  rw [ht, setFl_fl]

/-- CMP of two registers writes all three flags from the register values alone. -/
theorem execCmp_of_index {a b : Byte} {ra rb : RegIndex} (ha : a.toNat = ra.val) (hb : b.toNat = rb.val) (s : State) :
    execCmp a b s = .next ((s.setFl (compareFlags (s.reg ra) (s.reg rb))).advance 2) := by
  simp [execCmp, operandRR_of_index ha hb]

/-- CMP of two registers does not depend on the flags before it. -/
theorem execCmp_setFl {a b : Byte} (ha : a.toNat ≤ 7) (hb : b.toNat ≤ 7) (s : State) (f : Flags) :
    execCmp a b (s.setFl f) = execCmp a b s := by
  have hra : a.toNat = (⟨a.toNat, by omega⟩ : RegIndex).val := rfl
  have hrb : b.toNat = (⟨b.toNat, by omega⟩ : RegIndex).val := rfl
  simp [execCmp_of_index hra hrb]

/-- Settles O18: replacing FL commutes with every instruction but CMP (`exec_setFl`), and CMP overwrites FL. -/
theorem flagsWrittenByCompareReadAsEqual : Obligations.FlagsWrittenByCompareReadAsEqual := by
  unfold Obligations.FlagsWrittenByCompareReadAsEqual
  refine ⟨fun i s t h hfl => ?_, fun i s f hcmp hjeq hjne => ?_, fun a s f he => ?_, fun a b s t f ha hb h => ?_⟩
  · by_contra hno
    exact hfl (exec_keeps_fl (fun a b hi => hno ⟨a, b, hi⟩) h)
  · exact exec_setFl hcmp fun a hi => (hi.elim (hjeq a) (hjne a)).elim
  · exact ⟨execJeq_setFl a he, execJne_setFl a he⟩
  · exact (execCmp_setFl ha hb s f).trans h

end Sys2Proof.Machine
end

section
/-! PROOF. The two memory primitives (spec/20_memory.md R51, R52). A read outside 0 to 255 is
the same error in every state, and inside it sees its own cell alone; so what a write does to reads is what it does to
cells. -/

namespace Sys2Proof.Machine

/-! ## Reads of a state in which one cell was written -/

/-- An address outside 0 to 255 reads as the same error in every state; inside, only the cell's byte matters. -/
theorem memRead_congr {s t : State} {addr : Int}
    (h : 0 ≤ addr → addr ≤ 255 → t.mem.read addr.toNat = s.mem.read addr.toNat) : memRead t addr = memRead s addr := by
  by_cases hin : addr < 0 ∨ 255 < addr
  · rw [memRead_eq_error_iff.2 ⟨hin, rfl⟩, memRead_eq_error_iff.2 ⟨hin, rfl⟩]
  · have hlo : 0 ≤ addr := by omega
    have hhi : addr ≤ 255 := by omega
    rw [memRead_eq_ok_iff.2 ⟨hlo, hhi, h hlo hhi⟩, memRead_eq_ok_iff.2 ⟨hlo, hhi, rfl⟩]

theorem memRead_memWrite_same {s t : State} {addr v : Int} (hm : s.mem.wf) (h : memWrite s addr v = .ok t) :
    memRead t addr = .ok (BitVec.ofInt 8 v) := by
  obtain ⟨hlo, hhi, rfl⟩ := memWrite_eq_ok_iff.1 h
  exact memRead_eq_ok_iff.2 ⟨hlo, hhi, read_write_same hm.1 _ _⟩

theorem memRead_memWrite_other {s t : State} {addr other v : Int} (h : memWrite s addr v = .ok t)
    (hne : other ≠ addr) : memRead t other = memRead s other := by
  obtain ⟨hlo, hhi, rfl⟩ := memWrite_eq_ok_iff.1 h
  exact memRead_congr fun hother _ => read_write_other s.mem _ (by omega)

theorem memWrite_wf {s t : State} {addr v : Int} (hm : s.mem.wf) (h : memWrite s addr v = .ok t) : t.mem.wf := by
  obtain ⟨hlo, hhi, rfl⟩ := memWrite_eq_ok_iff.1 h
  exact write_wf hm (show addr.toNat < 256 by omega) _

/-- A write replaces the memory and no other element. -/
theorem memWrite_frame {s t : State} {addr v : Int} (h : memWrite s addr v = .ok t) : t = { s with mem := t.mem } := by
  obtain ⟨_, _, rfl⟩ := memWrite_eq_ok_iff.1 h
  rfl

/-- The byte a write stores is its value modulo 256 (20_memory.md R52), for negative values too. -/
theorem ofInt_eight_toNat (v : Int) : Int.ofNat (BitVec.ofInt 8 v).toNat = v % 256 := by
  rw [BitVec.toNat_ofInt]
  exact Int.toNat_of_nonneg (Int.emod_nonneg v (by decide))

/-- Settles O45: outside 0 to 255 both fail by their error lemmas; inside, the write succeeds and each clause is the
lemma above about the state it gives. -/
theorem memoryReadAndWritePrimitives : Obligations.MemoryReadAndWritePrimitives := by
  unfold Obligations.MemoryReadAndWritePrimitives
  refine fun s addr v hm => ⟨fun hout => ?_, fun hlo hhi => ⟨memRead_eq_ok_iff.2 ⟨hlo, hhi, rfl⟩, ?_⟩⟩
  · exact ⟨memRead_eq_error_iff.2 ⟨hout, rfl⟩, memWrite_eq_error_iff.2 ⟨hout, rfl⟩⟩
  · obtain ⟨t, hwrite⟩ : ∃ t, memWrite s addr v = .ok t := ⟨_, memWrite_eq_ok_iff.2 ⟨hlo, hhi, rfl⟩⟩
    exact ⟨t, _, hwrite, memWrite_wf hm hwrite, memRead_memWrite_same hm hwrite, ofInt_eight_toNat v,
      fun _ hne => memRead_memWrite_other hwrite hne, memWrite_frame hwrite⟩

end Sys2Proof.Machine
end

section
/-! PROOF. When a step has a next state (spec/40_engine_cycle.md R110, R111, R118). A cycle ends in a raise, which is a
next state, or in an instruction, and an instruction completes or raises; so a running core always has a next state, and
the two ended values of RUN are stops of `step` itself. -/

namespace Sys2Proof.Machine

/-! ## Instructions and cycles always answer a next state -/

/-- Completed or raised, the outcome is a next state. -/
theorem orRaise_answers_next (s : State) (r : Except Cause State) : ∃ t, orRaise s r = .next t := by
  cases r with
  | ok t => exact ⟨t, orRaise_ok s t⟩
  | error c => exact ⟨raise c s, orRaise_error s c⟩

/-- Every instruction but HLT is one `orRaise`, and HLT only writes RUN. -/
theorem exec_answers_next (i : Instr) (s : State) : ∃ t, exec i s = .next t := by
  cases i with
  | hlt => exact ⟨_, rfl⟩
  | add | sub | mul | div | mod | and | or | xor | not | shl | shr | cmp | ldi | prn | push | pop | call | ret | jmp
  | jeq | jne => exact orRaise_answers_next s _

theorem cycle_answers_next (s : State) : ∃ t, cycle s = .next t := by
  unfold cycle
  split
  · exact ⟨_, rfl⟩
  · next ir _ =>
    split
    · exact ⟨_, rfl⟩
    · next i _ => exact exec_answers_next i (s.setIr ir)

/-! ## The step by the value of RUN -/

theorem step_of_running {s : State} (h : s.run = .running) : step s = cycle s := by
  simp [step, h]

theorem step_of_halted {s : State} (h : s.run = .halted) : step s = .fault .stuckHalted := by
  simp [step, h]

theorem step_of_faulted {s : State} {r : FaultRecord} (h : s.run = .faulted r) : step s = .fault .stuckFaulted := by
  simp [step, h]

/-- Settles O4: a step that answers a next state ran (`step_cases`), a running core's step is a cycle, which always
answers one, and the other two values of RUN are the two stops. -/
theorem stepExistsExactlyWhileRunning : Obligations.StepExistsExactlyWhileRunning := by
  unfold Obligations.StepExistsExactlyWhileRunning
  refine fun s => ⟨⟨fun ⟨t, hstep⟩ => (step_cases hstep).1, fun hrun => ?_⟩, step_of_halted, fun _ => step_of_faulted⟩
  rw [step_of_running hrun]
  exact cycle_answers_next s

end Sys2Proof.Machine
end

section
/-! PROOF. Of the ALU operations only CMP writes FL (spec/41_alu.md R154). That the others leave FL is `exec_keeps_fl`,
whatever their result; what is left is what CMP itself can do: write FL and advance, or raise. -/

namespace Sys2Proof.Machine

open Sys2Proof.Claims

/-- Everything CMP can answer: the flags of its two registers with the advance, or an invalid register. -/
theorem execCmp_cases {a b : Byte} {s t : State} (h : execCmp a b s = .next t) :
    (∃ ra rb : RegIndex, a.toNat = ra.val ∧ b.toNat = rb.val ∧
      t = (s.setFl (compareFlags (s.reg ra) (s.reg rb))).advance 2) ∨
    (∃ c, operandRR a b = .error c ∧ t = raise c s) := by
  rcases hop : operandRR a b with c | ⟨ra, rb⟩
  · simp only [execCmp, hop, error_bind, orRaise_error] at h
    exact .inr ⟨c, rfl, (Host.Outcome.next.inj h).symm⟩
  · obtain ⟨ha, hb⟩ := operandRR_eq_ok_iff.1 hop
    rw [execCmp_of_index ha hb] at h
    exact .inl ⟨ra, rb, ha, hb, (Host.Outcome.next.inj h).symm⟩

/-- CMP writes no register, completed or raised. -/
theorem execCmp_keeps_regs {a b : Byte} {s t : State} (h : execCmp a b s = .next t) : t.regs = s.regs := by
  obtain ⟨ra, rb, -, -, rfl⟩ | ⟨c, -, rfl⟩ := execCmp_cases h
  · rw [advance_regs, setFl_regs]
  · exact raise_regs s c

/-- An ALU operation that writes a register is not CMP. -/
theorem ne_cmp_of_aluDestination {i : Instr} {d : Byte} (h : aluDestination i = some d) (a b : Byte) :
    i ≠ .cmp a b := by
  rintro rfl
  cases h

/-- CMP of a register with itself sets `E`. -/
theorem execCmp_same_sets_e {a : Byte} {r : RegIndex} (ha : a.toNat = r.val) (s : State) :
    ∃ t, execCmp a a s = .next t ∧ t.fl = ⟨false, false, true⟩ := by
  refine ⟨_, execCmp_of_index ha ha s, ?_⟩
  rw [advance_fl, setFl_fl, compareFlags_eq rfl]

/-- Settles O17: the eleven operations are not CMP, so `exec_keeps_fl` speaks of them; CMP keeps the registers by
`execCmp_keeps_regs`, and `CMP R0,R0` in the reset state, whose flags are clear, sets `E`. -/
theorem onlyCompareWritesFlags : Obligations.OnlyCompareWritesFlags := by
  unfold Obligations.OnlyCompareWritesFlags
  refine ⟨fun i d s t hd h => exec_keeps_fl (ne_cmp_of_aluDestination hd) h,
    fun a b s t h => execCmp_keeps_regs h, ?_⟩
  obtain ⟨t, hexec, hfl⟩ := execCmp_same_sets_e (show (0#8).toNat = (0 : RegIndex).val by rfl) State.reset
  refine ⟨0, 0, State.reset, t, hexec, ?_⟩
  rw [hfl, reset_fl]
  decide

end Sys2Proof.Machine
end

section
/-! PROOF. LDI, and PRN after it (spec/42_data_movement_output.md R170, R171). Each checks its one register operand and
then only writes and advances; so with a register index it is one state update, and PRN of the register LDI wrote reads
the written value back. -/

namespace Sys2Proof.Machine

open Sys2Proof.Claims

/-- The engine's advance is the claims' `p + k` as a natural number, cut to the nine bits of PC. -/
theorem pc_add_ofNat_eq_pcPlus (s : State) (k : Nat) : s.pc + BitVec.ofNat 9 k = pcPlus s k := by
  rw [pcPlus, BitVec.ofNat_add, BitVec.ofNat_toNat, BitVec.setWidth_eq]

/-- LDI of a register index never looks at the immediate: every byte is written (30_encoding.md R85). -/
theorem execLdi_of_index {a : Byte} {ra : RegIndex} (ha : a.toNat = ra.val) (imm : Byte) (s : State) :
    execLdi a imm s = .next ((s.setReg ra imm).advance 2) := by
  simp only [execLdi, operandR_eq, checkReg_of_index ha, ok_bind, pure_eq_ok, orRaise_ok]

theorem execLdi_of_gt {a : Byte} (ha : 7 < a.toNat) (imm : Byte) (s : State) :
    execLdi a imm s = .next (raise (.invalidRegister a) s) := by
  simp only [execLdi, operandR_eq, checkReg_of_gt ha, error_bind, orRaise_error]

theorem execPrn_of_index {a : Byte} {ra : RegIndex} (ha : a.toNat = ra.val) (s : State) :
    execPrn a s = .next ((s.emit (s.reg ra)).advance 1) := by
  simp only [execPrn, operandR_eq, checkReg_of_index ha, ok_bind, pure_eq_ok, orRaise_ok]

/-- The whole state LDI leaves: one register and PC written. -/
theorem setReg_advance_two (s : State) (r : RegIndex) (v : Byte) :
    (s.setReg r v).advance 2 = { s with regs := put s.regs r v, pc := pcPlus s 3 } := by
  rw [← pc_add_ofNat_eq_pcPlus]
  rfl

/-- PRN of a register that holds `v` appends exactly `v` to OUT. -/
theorem execPrn_appends {a : Byte} {ra : RegIndex} (ha : a.toNat = ra.val) {s : State} {v : Byte}
    (hv : s.reg ra = v) : ∃ u, execPrn a s = .next u ∧ u.out = s.out ++ [v] := by
  subst hv
  exact ⟨_, execPrn_of_index ha s, by rw [advance_out, emit_out]⟩

/-- Settles O20: with a register index LDI is the update of `execLdi_of_index`, whose register PRN then reads back
(`reg_setReg_same`), SP included; any other operand a is the one raise. -/
theorem loadImmediateRule : Obligations.LoadImmediateRule := by
  unfold Obligations.LoadImmediateRule
  refine fun a imm s => ⟨rfl, fun ra ha => ?_, fun ha => execLdi_of_gt ha imm s⟩
  have hldi : exec (.ldi a imm) s = .next ((s.setReg ra imm).advance 2) := execLdi_of_index ha imm s
  have hreg : ((s.setReg ra imm).advance 2).reg ra = imm := by rw [advance_reg, reg_setReg_same]
  obtain ⟨u, hprn, hout⟩ := execPrn_appends ha hreg
  exact ⟨hldi.trans (by rw [setReg_advance_two]), _, u, hldi, hprn, hout⟩

end Sys2Proof.Machine
end

section
/-! PROOF. Which instructions raise `DivisionByZero` (spec/60_exceptions.md R225). A completed instruction other than
HLT keeps RUN, so a fault found after it is the cause its work ended in. The work of DIV and MOD ends in a zero divisor
exactly after both register checks, and no other instruction has an operation with that cause. -/

namespace Sys2Proof.Machine

open Sys2Proof.Claims

/-! ## A fault after an instruction is the cause its work ended in -/

/-- A property of the results of work in sequence, one part after the other. -/
theorem forall_bind_eq_ok_iff {α β : Type} {x : Except Cause α} {f : α → Except Cause β} {P : β → Prop} :
    (∀ u, (x >>= f) = .ok u → P u) ↔ ∀ a, x = .ok a → ∀ u, f a = .ok u → P u := by
  simp only [bind_eq_ok_iff]
  exact ⟨fun h a ha u hu => h u ⟨a, ha, hu⟩, fun h u ⟨a, ha, hu⟩ => h a ha u hu⟩

theorem not_inFault_of_run_eq {s t : State} (hs : s.notFaulted) (hrun : t.run = s.run) (k : FaultKind) :
    ¬ inFault t k :=
  fun ⟨r, hr, _⟩ => hs r (hrun.symm.trans hr)

@[simp] theorem inFault_raise_iff {s : State} {c : Cause} {k : FaultKind} : inFault (raise c s) k ↔ c.kind = k := by
  simp [inFault]

theorem kind_eq_divisionByZero_iff {c : Cause} : c.kind = .divisionByZero ↔ c = .divisionByZero := by
  cases c <;> simp [Cause.kind]

/-- Work that keeps RUN when it completes leaves a fault only by raising it. -/
theorem orRaise_inFault {s t : State} {r : Except Cause State} {k : FaultKind} (hs : s.notFaulted)
    (hrun : ∀ u, r = .ok u → u.run = s.run) (h : orRaise s r = .next t) (hf : inFault t k) :
    ∃ c, r = .error c ∧ c.kind = k ∧ t = raise c s := by
  obtain hok | ⟨c, hc, rfl⟩ := orRaise_eq_next_iff.1 h
  · exact absurd hf (not_inFault_of_run_eq hs (hrun t hok) k)
  · exact ⟨c, hc, inFault_raise_iff.1 hf, rfl⟩

/-- Work that keeps RUN and does not end in a zero divisor leaves no `DivisionByZero`. -/
theorem orRaise_not_divisionByZero {s t : State} {r : Except Cause State} (hs : s.notFaulted)
    (hrun : ∀ u, r = .ok u → u.run = s.run) (hr : r ≠ .error .divisionByZero) (h : orRaise s r = .next t) :
    ¬ inFault t .divisionByZero := fun hf => by
  obtain ⟨c, hc, hkind, -⟩ := orRaise_inFault hs hrun h hf
  exact hr (hc.trans (congrArg _ (kind_eq_divisionByZero_iff.1 hkind)))

/-- No instruction but DIV and MOD raises `DivisionByZero`: the parts of the others' work are the register checks, the
stack pointer's checks and memory accesses at a byte's address, and none of these has that cause. -/
theorem exec_not_divisionByZero {i : Instr} {s t : State} (hdiv : ∀ a b, i ≠ .div a b) (hmod : ∀ a b, i ≠ .mod a b)
    (hs : s.notFaulted) (h : exec i s = .next t) : ¬ inFault t .divisionByZero := by
  cases i with
  | div a b => exact absurd rfl (hdiv a b)
  | mod a b => exact absurd rfl (hmod a b)
  | hlt =>
    obtain rfl : s.halt.advance 0 = t := Host.Outcome.next.inj h
    simp [inFault]
  | add | sub | mul | and | or | xor | shl | shr | cmp =>
    exact orRaise_not_divisionByZero hs (by simp [forall_bind_eq_ok_iff])
      (by simp [bind_eq_error_iff, operandRR_eq_error_iff]) h
  | not | ldi | prn | jmp | jeq | jne =>
    exact orRaise_not_divisionByZero hs (by simp [forall_bind_eq_ok_iff, apply_ite State.run])
      (by simp [bind_eq_error_iff, operandR_eq, checkReg_eq_error_iff]) h
  | push | pop | call | ret =>
    exact orRaise_not_divisionByZero hs (by simp [forall_bind_eq_ok_iff, memWrite_eq_ok_iff])
      (by simp [bind_eq_error_iff, operandR_eq, checkReg_eq_error_iff, pushAddress_eq_error_iff,
        checkNotEmpty_eq_error_iff, incrementedSp_eq_error_iff, memRead_eq_error_iff, memWrite_eq_error_iff]) h

/-! ## The two divisions -/

theorem aluDiv_eq_error_iff (u v : Byte) (c : Cause) : aluDiv u v = .error c ↔ v = 0#8 ∧ c = .divisionByZero := by
  unfold aluDiv
  split <;> simp_all [← BitVec.toNat_inj, eq_comm]

theorem aluMod_eq_error_iff (u v : Byte) (c : Cause) : aluMod u v = .error c ↔ v = 0#8 ∧ c = .divisionByZero := by
  unfold aluMod
  split <;> simp_all [← BitVec.toNat_inj, eq_comm]

section Division

variable {op : Byte → Byte → Except Cause Byte}
  (hop : ∀ (u v : Byte) (c : Cause), op u v = .error c ↔ v = 0#8 ∧ c = .divisionByZero)
include hop

/-- A zero divisor is found after both register checks and before the write. -/
theorem aluWrite_of_zero_divisor {a b : Byte} {rb : RegIndex} {s : State} (ha : a.toNat ≤ 7) (hb : b.toNat = rb.val)
    (hz : s.reg rb = 0#8) : aluWrite a b op s = .next (raise .divisionByZero s) := by
  have hra : a.toNat = (⟨a.toNat, by omega⟩ : RegIndex).val := rfl
  rw [aluWrite_of_index hra hb, (hop _ _ _).2 ⟨hz, rfl⟩]
  rfl

/-- A `DivisionByZero` after a division is its own: both operands name registers and the divisor is 0. -/
theorem zero_divisor_of_inFault {a b : Byte} {s t : State} (hs : s.notFaulted) (h : aluWrite a b op s = .next t)
    (hf : inFault t .divisionByZero) :
    (∃ rb : RegIndex, a.toNat ≤ 7 ∧ b.toNat = rb.val ∧ s.reg rb = 0#8) ∧ t = faulted s .divisionByZero none := by
  obtain ⟨ra, rb, result, -, -, -, rfl⟩ | ⟨c, hc, rfl⟩ | ⟨ra, rb, c, ha, hb, hc, rfl⟩ := aluWrite_cases h
  · exact absurd hf (not_inFault_of_run_eq hs (by simp) _)
  · obtain rfl := kind_eq_divisionByZero_iff.1 (inFault_raise_iff.1 hf)
    simp [operandRR_eq_error_iff] at hc
  · obtain ⟨hz, rfl⟩ := (hop _ _ _).1 hc
    exact ⟨⟨rb, by omega, hb, hz⟩, rfl⟩

theorem aluWrite_divisionByZero_iff {a b : Byte} {s t : State} (hs : s.notFaulted)
    (h : aluWrite a b op s = .next t) :
    (inFault t .divisionByZero ↔ ∃ rb : RegIndex, a.toNat ≤ 7 ∧ b.toNat = rb.val ∧ s.reg rb = 0#8) ∧
    (inFault t .divisionByZero → t = faulted s .divisionByZero none) := by
  refine ⟨⟨fun hf => (zero_divisor_of_inFault hop hs h hf).1, fun ⟨rb, ha, hb, hz⟩ => ?_⟩,
    fun hf => (zero_divisor_of_inFault hop hs h hf).2⟩
  obtain rfl := Host.Outcome.next.inj ((aluWrite_of_zero_divisor hop ha hb hz).symm.trans h)
  exact inFault_raise_iff.2 rfl

end Division

/-- Settles O13: DIV and MOD are the template with an operation that fails exactly for a zero divisor
(`aluWrite_divisionByZero_iff`), and the fault of any other instruction is of another kind (`exec_not_divisionByZero`). -/
theorem divisionByZeroExactly : Obligations.DivisionByZeroExactly := by
  unfold Obligations.DivisionByZeroExactly
  intro i s t hs h
  by_cases hi : ∃ a b, i = .div a b ∨ i = .mod a b
  · obtain ⟨a, b, rfl | rfl⟩ := hi
    · simpa using aluWrite_divisionByZero_iff aluDiv_eq_error_iff hs h
    · simpa using aluWrite_divisionByZero_iff aluMod_eq_error_iff hs h
  · have hno : ¬ inFault t .divisionByZero :=
      exec_not_divisionByZero (fun a b hd => hi ⟨a, b, .inl hd⟩) (fun a b hm => hi ⟨a, b, .inr hm⟩) hs h
    exact ⟨⟨fun hf => absurd hf hno, fun ⟨a, b, _, hab, _⟩ => absurd ⟨a, b, hab⟩ hi⟩, fun hf => absurd hf hno⟩

end Sys2Proof.Machine
end

section
/-! PROOF. What an instruction does, said once. `Completes s i t` lists the ways an instruction completes and
`Raises s i c` the ways it raises, each with its guards. The two tables are the model's own: every row is what `exec`
answers (`exec_of_completes`, `exec_of_raises`), some row fits every instruction in every state
(`completes_or_raises`), and so whatever `exec` answers stands in them (`exec_cases`). -/

namespace Sys2Proof

/-- The operand bytes that name registers, in the order of their checks (60_exceptions.md R227). LDI's immediate is
none. -/
def Instr.registerOperands : Instr → List Byte
  | .add a b | .sub a b | .mul a b | .div a b | .mod a b
  | .and a b | .or a b | .xor a b | .shl a b | .shr a b
  | .cmp a b => [a, b]
  | .not a | .ldi a _ | .prn a | .push a | .pop a
  | .call a | .jmp a | .jeq a | .jne a => [a]
  | .ret | .hlt => []

/-- The register operand whose check fails first, if one fails. -/
def Instr.firstInvalid (i : Instr) : Option Byte := i.registerOperands.find? fun r => decide (7 < r.toNat)

theorem wellFormed_iff (i : Instr) : WellFormed i ↔ ∀ r ∈ i.registerOperands, r.toNat ≤ 7 := by
  cases i <;> simp [WellFormed, Instr.wf, namesRegister, Instr.registerOperands, Nat.lt_succ_iff]

theorem firstInvalid_eq_none_iff {i : Instr} : i.firstInvalid = none ↔ WellFormed i := by
  simp [Instr.firstInvalid, wellFormed_iff]

theorem not_wellFormed_of_firstInvalid {i : Instr} {r : Byte} (h : i.firstInvalid = some r) : ¬ WellFormed i := by
  rw [← firstInvalid_eq_none_iff, h]
  exact Option.some_ne_none r

end Sys2Proof

namespace Sys2Proof.Machine

open Sys2Proof.Claims

/-! ## The operations the two-operand ALU instructions give to the template -/

/-- The ten instructions that are `aluWrite`, with their operand bytes and their operation. -/
def twoOperandAlu : Instr → Option (Byte × Byte × (Byte → Byte → Except Cause Byte))
  | .add a b => some (a, b, fun u v => .ok (aluAdd u v))
  | .sub a b => some (a, b, fun u v => .ok (aluSub u v))
  | .mul a b => some (a, b, fun u v => .ok (aluMul u v))
  | .div a b => some (a, b, aluDiv)
  | .mod a b => some (a, b, aluMod)
  | .and a b => some (a, b, fun u v => .ok (aluAnd u v))
  | .or a b => some (a, b, fun u v => .ok (aluOr u v))
  | .xor a b => some (a, b, fun u v => .ok (aluXor u v))
  | .shl a b => some (a, b, fun u v => .ok (aluShl u v))
  | .shr a b => some (a, b, fun u v => .ok (aluShr u v))
  | .not _ | .cmp _ _ | .ldi _ _ | .prn _ | .push _ | .pop _ | .call _ | .ret | .jmp _ | .jeq _ | .jne _ | .hlt => none

section TwoOperandAlu

variable {i : Instr} {a b : Byte} {op : Byte → Byte → Except Cause Byte}
  (hi : twoOperandAlu i = some (a, b, op))
include hi

theorem exec_of_twoOperandAlu (s : State) : exec i s = aluWrite a b op s := by
  cases i <;> cases hi <;> rfl

theorem registerOperands_of_twoOperandAlu : i.registerOperands = [a, b] := by
  cases i <;> cases hi <;> rfl

theorem operandBytes_of_twoOperandAlu : i.operandBytes = [a, b] := by
  cases i <;> cases hi <;> rfl

theorem aluDestination_of_twoOperandAlu : aluDestination i = some a := by
  cases i <;> cases hi <;> rfl

/-- The one fault an operation has of its own is the zero divisor. -/
theorem divisionByZero_of_twoOperandAlu {u v : Byte} {c : Cause} (hc : op u v = .error c) : c = .divisionByZero := by
  cases i with
  | div => cases hi; exact ((aluDiv_eq_error_iff u v c).1 hc).2
  | mod => cases hi; exact ((aluMod_eq_error_iff u v c).1 hc).2
  | _ => cases hi <;> cases hc

end TwoOperandAlu

/-! ## The stack's shared parts -/

/-- The state after the push of a byte: SP decremented and the byte stored at the new SP. -/
def State.pushed (s : State) (v : Byte) : State :=
  (s.setSp (s.sp - 1#8)).setMem (s.mem.write (s.sp - 1#8).toNat v)

theorem reg_pushed (s : State) (v : Byte) (r : RegIndex) :
    (s.pushed v).reg r = if r = Config.spIndex then s.sp - 1#8 else s.reg r := reg_setSp s r _

/-- The byte that POP increments to the new SP: SP, or the popped byte when it was just written to SP
(90_conflicts.md C10). -/
def State.popBase (s : State) (ra : RegIndex) : Byte :=
  if ra = Config.spIndex then s.mem.read s.sp.toNat else s.sp

theorem incrementedSp_succ_of_ne {v : Byte} (h : v ≠ 0xFF#8) : incrementedSp (v.toNat + 1) = .ok (v + 1#8) := by
  have hlt : v.toNat + 1 ≤ 255 := by bv_omega
  rw [incrementedSp_of_le hlt, BitVec.ofNat_add, BitVec.ofNat_toNat, BitVec.setWidth_eq]

theorem incrementedSp_succ_of_eq {v : Byte} (h : v = 0xFF#8) :
    incrementedSp (v.toNat + 1) = .error (.outOfBounds 256) := by
  subst h
  rfl

theorem incrementedSp_popBase (s : State) (ra : RegIndex) :
    incrementedSp (if ra = Config.spIndex then (s.mem.read s.sp.toNat).toNat + 1 else s.sp.toNat + 1) =
      incrementedSp ((s.popBase ra).toNat + 1) := by
  unfold State.popBase
  split <;> rfl

/-! ## The two tables -/

/-- The ways an instruction completes, and the state it leaves. -/
inductive Completes (s : State) : Instr → State → Prop
  | alu {i : Instr} {a b : Byte} {op : Byte → Byte → Except Cause Byte} {ra rb : RegIndex} {v : Byte}
      (hi : twoOperandAlu i = some (a, b, op)) (ha : a.toNat = ra.val) (hb : b.toNat = rb.val)
      (hv : op (s.reg ra) (s.reg rb) = .ok v) : Completes s i ((s.setReg ra v).advance 2)
  | not {a : Byte} {ra : RegIndex} (ha : a.toNat = ra.val) :
      Completes s (.not a) ((s.setReg ra (aluNot (s.reg ra))).advance 1)
  | cmp {a b : Byte} {ra rb : RegIndex} (ha : a.toNat = ra.val) (hb : b.toNat = rb.val) :
      Completes s (.cmp a b) ((s.setFl (compareFlags (s.reg ra) (s.reg rb))).advance 2)
  | ldi {a : Byte} {ra : RegIndex} (imm : Byte) (ha : a.toNat = ra.val) :
      Completes s (.ldi a imm) ((s.setReg ra imm).advance 2)
  | prn {a : Byte} {ra : RegIndex} (ha : a.toNat = ra.val) : Completes s (.prn a) ((s.emit (s.reg ra)).advance 1)
  | push {a : Byte} {ra : RegIndex} (ha : a.toNat = ra.val) (hsp : s.sp ≠ 0#8) :
      Completes s (.push a) ((s.pushed ((s.setSp (s.sp - 1#8)).reg ra)).advance 1)
  | pop {a : Byte} {ra : RegIndex} (ha : a.toNat = ra.val) (hsp : s.sp ≠ Config.spInit)
      (htop : s.popBase ra ≠ 0xFF#8) :
      Completes s (.pop a) (((s.setReg ra (s.mem.read s.sp.toNat)).setSp (s.popBase ra + 1#8)).advance 1)
  | call {a : Byte} {ra : RegIndex} (ha : a.toNat = ra.val) (hsp : s.sp ≠ 0#8) :
      Completes s (.call a)
        ((s.pushed (BitVec.ofNat 8 (s.pc.toNat + 2))).setPc (zext9 ((s.setSp (s.sp - 1#8)).reg ra)))
  | ret (hsp : s.sp ≠ Config.spInit) (htop : s.sp ≠ 0xFF#8) :
      Completes s .ret ((s.setSp (s.sp + 1#8)).setPc (zext9 (s.mem.read s.sp.toNat)))
  | jump {i : Instr} {a : Byte} {ra : RegIndex} (ha : a.toNat = ra.val)
      (hi : i = .jmp a ∨ (i = .jeq a ∧ s.fl.e = true) ∨ (i = .jne a ∧ s.fl.e = false)) :
      Completes s i (s.setPc (zext9 (s.reg ra)))
  | fallThrough {i : Instr} {a : Byte} {ra : RegIndex} (ha : a.toNat = ra.val)
      (hi : (i = .jeq a ∧ s.fl.e = false) ∨ (i = .jne a ∧ s.fl.e = true)) : Completes s i (s.advance 1)
  | hlt : Completes s .hlt (s.halt.advance 0)

/-- The ways an instruction raises, and the cause. -/
inductive Raises (s : State) : Instr → Cause → Prop
  | invalidRegister {i : Instr} {r : Byte} (h : i.firstInvalid = some r) : Raises s i (.invalidRegister r)
  | divisionByZero {i : Instr} {a b : Byte} {op : Byte → Byte → Except Cause Byte} {ra rb : RegIndex}
      (hi : twoOperandAlu i = some (a, b, op)) (ha : a.toNat = ra.val) (hb : b.toNat = rb.val)
      (hop : op (s.reg ra) (s.reg rb) = .error .divisionByZero) : Raises s i .divisionByZero
  | pushAtZero {i : Instr} {a : Byte} {ra : RegIndex} (hi : i = .push a ∨ i = .call a) (ha : a.toNat = ra.val)
      (hsp : s.sp = 0#8) : Raises s i (.outOfBounds (-1))
  | popEmpty {a : Byte} {ra : RegIndex} (ha : a.toNat = ra.val) (hsp : s.sp = Config.spInit) :
      Raises s (.pop a) .emptyStack
  | popAtTop {a : Byte} {ra : RegIndex} (ha : a.toNat = ra.val) (hsp : s.sp ≠ Config.spInit)
      (htop : s.popBase ra = 0xFF#8) : Raises s (.pop a) (.outOfBounds 256)
  | retEmpty (hsp : s.sp = Config.spInit) : Raises s .ret .emptyStack
  | retAtTop (htop : s.sp = 0xFF#8) : Raises s .ret (.outOfBounds 256)

/-! ## Every row is what `exec` answers -/

theorem exec_of_completes {s t : State} {i : Instr} (h : Completes s i t) : exec i s = .next t := by
  cases h with
  | alu hi ha hb hv => rw [exec_of_twoOperandAlu hi, aluWrite_of_index ha hb, hv]; rfl
  | not ha => simp [exec, execNot, operandR_eq, checkReg_of_index ha]
  | cmp ha hb => exact execCmp_of_index ha hb s
  | ldi imm ha => exact execLdi_of_index ha imm s
  | prn ha => exact execPrn_of_index ha s
  | push ha hsp =>
    simp [exec, execPush, operandR_eq, checkReg_of_index ha, pushAddress_of_ne hsp, State.pushed, -Int.ofNat_eq_natCast]
  | pop ha hsp htop =>
    simp [exec, execPop, operandR_eq, checkReg_of_index ha, checkNotEmpty_of_ne hsp, incrementedSp_popBase,
      incrementedSp_succ_of_ne htop, -Int.ofNat_eq_natCast]
  | call ha hsp =>
    simp [exec, execCall, operandR_eq, checkReg_of_index ha, pushAddress_of_ne hsp, State.pushed, -Int.ofNat_eq_natCast]
  | ret hsp htop =>
    simp [exec, execRet, checkNotEmpty_of_ne hsp, incrementedSp_succ_of_ne htop, -Int.ofNat_eq_natCast]
  | jump ha hi =>
    obtain rfl | ⟨rfl, he⟩ | ⟨rfl, he⟩ := hi
    · simp [exec, execJmp, operandR_eq, checkReg_of_index ha]
    · simp [exec, execJeq, operandR_eq, checkReg_of_index ha, State.equalFlag, he]
    · simp [exec, execJne, operandR_eq, checkReg_of_index ha, State.equalFlag, he]
  | fallThrough ha hi =>
    obtain ⟨rfl, he⟩ | ⟨rfl, he⟩ := hi
    · simp [exec, execJeq, operandR_eq, checkReg_of_index ha, State.equalFlag, he]
    · simp [exec, execJne, operandR_eq, checkReg_of_index ha, State.equalFlag, he]
  | hlt => rfl

/-- The checks of two register operands fail with the first operand that is out of range. -/
theorem operandRR_of_find {a b r : Byte} (h : [a, b].find? (fun x => decide (7 < x.toNat)) = some r) :
    operandRR a b = .error (.invalidRegister r) := by
  rw [operandRR_eq_error_iff]
  by_cases ha : 7 < a.toNat
  · obtain rfl : a = r := by simpa [ha] using h
    exact .inl ⟨ha, rfl⟩
  · by_cases hb : 7 < b.toNat
    · obtain rfl : b = r := by simpa [ha, hb] using h
      exact .inr ⟨by omega, hb, rfl⟩
    · simp [ha, hb] at h

theorem checkReg_of_find {a r : Byte} (h : [a].find? (fun x => decide (7 < x.toNat)) = some r) :
    checkReg a = .error (.invalidRegister r) := by
  by_cases ha : 7 < a.toNat
  · obtain rfl : a = r := by simpa [ha] using h
    exact checkReg_of_gt ha
  · simp [ha] at h

/-- The register checks come first in every instruction. -/
theorem exec_of_firstInvalid {s : State} {i : Instr} {r : Byte} (h : i.firstInvalid = some r) :
    exec i s = .next (raise (.invalidRegister r) s) := by
  cases i with
  | add | sub | mul | div | mod | and | or | xor | shl | shr =>
    exact (exec_of_twoOperandAlu rfl s).trans (aluWrite_of_invalid (operandRR_of_find h) _ s)
  | cmp => simp [exec, execCmp, operandRR_of_find h]
  | not | ldi | prn | push | pop | call | jmp | jeq | jne =>
    simp [exec, execNot, execLdi, execPrn, execPush, execPop, execCall, execJmp, execJeq, execJne, operandR_eq,
      checkReg_of_find h]
  | ret | hlt => cases h

theorem exec_of_raises {s : State} {i : Instr} {c : Cause} (h : Raises s i c) : exec i s = .next (raise c s) := by
  cases h with
  | invalidRegister h => exact exec_of_firstInvalid h
  | divisionByZero hi ha hb hop => rw [exec_of_twoOperandAlu hi, aluWrite_of_index ha hb, hop]; rfl
  | pushAtZero hi ha hsp =>
    obtain rfl | rfl := hi
    · simp [exec, execPush, operandR_eq, checkReg_of_index ha, pushAddress_of_eq hsp]
    · simp [exec, execCall, operandR_eq, checkReg_of_index ha, pushAddress_of_eq hsp]
  | popEmpty ha hsp => simp [exec, execPop, operandR_eq, checkReg_of_index ha, checkNotEmpty_of_eq hsp]
  | popAtTop ha hsp htop =>
    simp [exec, execPop, operandR_eq, checkReg_of_index ha, checkNotEmpty_of_ne hsp, incrementedSp_popBase,
      incrementedSp_succ_of_eq htop, -Int.ofNat_eq_natCast]
  | retEmpty hsp => simp [exec, execRet, checkNotEmpty_of_eq hsp]
  | retAtTop htop =>
    have hsp : s.sp ≠ Config.spInit := by rw [htop]; decide
    simp [exec, execRet, checkNotEmpty_of_ne hsp, incrementedSp_succ_of_eq htop]

/-! ## Some row fits every instruction in every state -/

/-- A well-formed instruction finds its row by its operands' registers and its guards. -/
theorem completes_or_raises_of_wellFormed {i : Instr} (hwf : WellFormed i) (s : State) :
    (∃ t, Completes s i t) ∨ ∃ c, Raises s i c := by
  have index : ∀ r ∈ i.registerOperands, ∃ ra : RegIndex, r.toNat = ra.val := fun r hr =>
    ⟨⟨r.toNat, Nat.lt_succ_of_le ((wellFormed_iff i).1 hwf r hr)⟩, rfl⟩
  cases hi : twoOperandAlu i with
  | some x =>
    obtain ⟨a, b, op⟩ := x
    rw [registerOperands_of_twoOperandAlu hi] at index
    obtain ⟨ra, ha⟩ := index a (by simp)
    obtain ⟨rb, hb⟩ := index b (by simp)
    cases hv : op (s.reg ra) (s.reg rb) with
    | ok v => exact .inl ⟨_, .alu hi ha hb hv⟩
    | error c =>
      obtain rfl := divisionByZero_of_twoOperandAlu hi hv
      exact .inr ⟨_, .divisionByZero hi ha hb hv⟩
  | none =>
    cases i with
    | add | sub | mul | div | mod | and | or | xor | shl | shr => cases hi
    | cmp a b =>
      obtain ⟨ra, ha⟩ := index a (by simp [Instr.registerOperands])
      obtain ⟨rb, hb⟩ := index b (by simp [Instr.registerOperands])
      exact .inl ⟨_, .cmp ha hb⟩
    | not a => obtain ⟨ra, ha⟩ := index a (.head _); exact .inl ⟨_, .not ha⟩
    | ldi a imm => obtain ⟨ra, ha⟩ := index a (.head _); exact .inl ⟨_, .ldi imm ha⟩
    | prn a => obtain ⟨ra, ha⟩ := index a (.head _); exact .inl ⟨_, .prn ha⟩
    | push a =>
      obtain ⟨ra, ha⟩ := index a (.head _)
      by_cases hsp : s.sp = 0#8
      · exact .inr ⟨_, .pushAtZero (.inl rfl) ha hsp⟩
      · exact .inl ⟨_, .push ha hsp⟩
    | pop a =>
      obtain ⟨ra, ha⟩ := index a (.head _)
      by_cases hsp : s.sp = Config.spInit
      · exact .inr ⟨_, .popEmpty ha hsp⟩
      · by_cases htop : s.popBase ra = 0xFF#8
        · exact .inr ⟨_, .popAtTop ha hsp htop⟩
        · exact .inl ⟨_, .pop ha hsp htop⟩
    | call a =>
      obtain ⟨ra, ha⟩ := index a (.head _)
      by_cases hsp : s.sp = 0#8
      · exact .inr ⟨_, .pushAtZero (.inr rfl) ha hsp⟩
      · exact .inl ⟨_, .call ha hsp⟩
    | ret =>
      by_cases hsp : s.sp = Config.spInit
      · exact .inr ⟨_, .retEmpty hsp⟩
      · by_cases htop : s.sp = 0xFF#8
        · exact .inr ⟨_, .retAtTop htop⟩
        · exact .inl ⟨_, .ret hsp htop⟩
    | jmp a => obtain ⟨ra, ha⟩ := index a (.head _); exact .inl ⟨_, .jump ha (.inl rfl)⟩
    | jeq a =>
      obtain ⟨ra, ha⟩ := index a (.head _)
      cases he : s.fl.e with
      | true => exact .inl ⟨_, .jump ha (.inr (.inl ⟨rfl, he⟩))⟩
      | false => exact .inl ⟨_, .fallThrough ha (.inl ⟨rfl, he⟩)⟩
    | jne a =>
      obtain ⟨ra, ha⟩ := index a (.head _)
      cases he : s.fl.e with
      | true => exact .inl ⟨_, .fallThrough ha (.inr ⟨rfl, he⟩)⟩
      | false => exact .inl ⟨_, .jump ha (.inr (.inr ⟨rfl, he⟩))⟩
    | hlt => exact .inl ⟨_, .hlt⟩

theorem completes_or_raises (i : Instr) (s : State) : (∃ t, Completes s i t) ∨ ∃ c, Raises s i c := by
  cases h : i.firstInvalid with
  | some r => exact .inr ⟨_, .invalidRegister h⟩
  | none => exact completes_or_raises_of_wellFormed (firstInvalid_eq_none_iff.1 h) s

/-- Everything an instruction can answer: it completes with all of its writes, or raises with none
(60_exceptions.md R228). -/
theorem exec_cases {s t : State} {i : Instr} (h : exec i s = .next t) :
    Completes s i t ∨ ∃ c, Raises s i c ∧ t = raise c s := by
  obtain ⟨u, hu⟩ | ⟨c, hc⟩ := completes_or_raises i s
  · obtain rfl : u = t := Host.Outcome.next.inj ((exec_of_completes hu).symm.trans h)
    exact .inl hu
  · exact .inr ⟨c, hc, (Host.Outcome.next.inj ((exec_of_raises hc).symm.trans h)).symm⟩

end Sys2Proof.Machine
end

section
/-! PROOF. What each element of the state can be after an instruction and after a step, read off the two tables of
`exec_cases`: one lemma for each element. -/

namespace Sys2Proof.Machine

open Sys2Proof.Claims Sys2Proof.Laws.Layout

theorem notFaulted_of_running {s : State} (h : s.run = .running) : s.notFaulted := by
  intro r hr
  rw [h] at hr
  cases hr

/-! ## Each element after a completed instruction -/

section Completed

variable {s t : State} {i : Instr} (h : Completes s i t)
include h

theorem ir_of_completes : t.ir = s.ir := by cases h <;> rfl

/-- RUN is written by HLT alone. -/
theorem run_of_completes : i ≠ .hlt ∧ t.run = s.run ∨ i = .hlt ∧ t.run = .halted := by
  cases h with
  | alu hi => exact .inl ⟨(by rintro rfl; cases hi), rfl⟩
  | jump ha hi => exact .inl ⟨(by rintro rfl; simp at hi), rfl⟩
  | fallThrough ha hi => exact .inl ⟨(by rintro rfl; simp at hi), rfl⟩
  | hlt => exact .inr ⟨rfl, rfl⟩
  | _ => exact .inl ⟨nofun, rfl⟩

theorem notFaulted_of_completes (hs : s.notFaulted) : t.notFaulted := by
  intro r hr
  obtain ⟨-, hrun⟩ | ⟨-, hrun⟩ := run_of_completes h
  · exact hs r (hrun.symm.trans hr)
  · rw [hrun] at hr; cases hr

/-- OUT is written by PRN alone. -/
theorem out_of_completes : t.out = s.out ∨ ∃ a v, i = .prn a ∧ t.out = s.out ++ [v] := by
  cases h with
  | prn ha => exact .inr ⟨_, _, rfl, rfl⟩
  | _ => exact .inl rfl

/-- Memory is written by PUSH and CALL alone, at SP - 1. -/
theorem mem_of_completes : t.mem = s.mem ∨
    (∃ a, i = .push a ∨ i = .call a) ∧ s.sp ≠ 0#8 ∧ ∃ v, t.mem = s.mem.write (s.sp - 1#8).toNat v := by
  cases h with
  | push ha hsp => exact .inr ⟨⟨_, .inl rfl⟩, hsp, _, rfl⟩
  | call ha hsp => exact .inr ⟨⟨_, .inr rfl⟩, hsp, _, rfl⟩
  | _ => exact .inl rfl

theorem fl_of_completes : t.fl = s.fl ∨ ∃ u v, t.fl = compareFlags u v := by
  cases h with
  | cmp => exact .inr ⟨_, _, rfl⟩
  | _ => exact .inl rfl

/-- PC moves past the instruction, or one of the five that set it puts a byte in it. -/
theorem pc_of_completes : t.pc = s.pc + BitVec.ofNat 9 (i.operandBytes.length + 1) ∨
    setsPc i = true ∧ ∃ v : Byte, t.pc = zext9 v := by
  cases h with
  | alu hi => exact .inl (by rw [operandBytes_of_twoOperandAlu hi]; rfl)
  | call | ret => exact .inr ⟨rfl, _, rfl⟩
  | jump ha hi => exact .inr ⟨by obtain rfl | ⟨rfl, -⟩ | ⟨rfl, -⟩ := hi <;> rfl, _, rfl⟩
  | fallThrough ha hi => exact .inl (by obtain ⟨rfl, -⟩ | ⟨rfl, -⟩ := hi <;> rfl)
  | _ => exact .inl rfl

end Completed

/-! ## Which cause -/

/-- A fault kind found after an instruction begun without one is the kind of the row it raised by. -/
theorem exec_inFault {s t : State} {i : Instr} {k : FaultKind} (hs : s.notFaulted) (h : exec i s = .next t)
    (hf : inFault t k) : ∃ c, Raises s i c ∧ c.kind = k ∧ t = raise c s := by
  obtain hc | ⟨c, hc, rfl⟩ := exec_cases h
  · obtain ⟨r, hr, -⟩ := hf
    exact absurd hr (notFaulted_of_completes hc hs r)
  · exact ⟨c, hc, inFault_raise_iff.1 hf, rfl⟩

/-- No instruction raises an unsupported opcode: those faults are the decoder's. -/
theorem kind_of_raises {s : State} {i : Instr} {c : Cause} (h : Raises s i c) :
    c.kind ≠ .unsupportedInstruction ∧ c.kind ≠ .unsupportedALUOperation := by
  cases h <;> simp [Cause.kind]

/-- No row writes IR. -/
theorem exec_keeps_ir {s t : State} {i : Instr} (h : exec i s = .next t) : t.ir = s.ir := by
  obtain hc | ⟨c, -, rfl⟩ := exec_cases h
  · exact ir_of_completes hc
  · exact raise_ir s c

/-! ## The layout's fields, for every instruction -/

theorem layout (i : Instr) : Statement i := by
  cases i with
  | add a b => exact add a b
  | sub a b => exact sub a b
  | mul a b => exact mul a b
  | div a b => exact div a b
  | mod a b => exact mod a b
  | and a b => exact and a b
  | or a b => exact or a b
  | xor a b => exact xor a b
  | not a => exact not a
  | shl a b => exact shl a b
  | shr a b => exact shr a b
  | cmp a b => exact cmp a b
  | ldi a b => exact ldi a b
  | prn a => exact prn a
  | push a => exact push a
  | pop a => exact pop a
  | call a => exact call a
  | ret => exact ret
  | jmp a => exact jmp a
  | jeq a => exact jeq a
  | jne a => exact jne a
  | hlt => exact hlt

theorem operandCount_of_opcode (i : Instr) : operandCount i.opcode = i.operandBytes.length := (layout i).1

theorem setsPcBit_of_opcode (i : Instr) : setsPcBit i.opcode = setsPc i := (layout i).2.2.1

theorem operandBytes_length_le (i : Instr) : i.operandBytes.length ≤ 2 := by
  cases i <;> simp [Instr.operandBytes]

/-! ## Everything a step can do -/

/-- The two ways a step of a core ends: a raise from the state with or without the fetched opcode in IR, or a completed
instruction whose opcode stood at PC and whose operand bytes lie inside memory. -/
theorem step_completes_or_raises {s t : State} (h : step s = .next t) :
    (255 < s.pc.toNat ∧ t = raise (.outOfBounds (Int.ofNat s.pc.toNat)) s) ∨
    (s.pc.toNat ≤ 255 ∧ ∃ c, t = raise c (s.setIr (s.mem.read s.pc.toNat)) ∧
      (fetchInstr (s.setIr (s.mem.read s.pc.toNat)) = .error c ∨
        ∃ i, s.mem.read s.pc.toNat = i.opcode ∧ Raises (s.setIr (s.mem.read s.pc.toNat)) i c)) ∨
    (s.pc.toNat + operandCount (s.mem.read s.pc.toNat) ≤ 255 ∧ t.notFaulted ∧
      ∃ i, s.mem.read s.pc.toNat = i.opcode ∧ Completes (s.setIr (s.mem.read s.pc.toNat)) i t) := by
  obtain ⟨hrun, ⟨hpc, ht⟩ | ⟨hpc, c, hc, ht⟩ | ⟨hpc, i, hi, hexec⟩⟩ := step_cases h
  · exact .inl ⟨hpc, ht⟩
  · exact .inr (.inl ⟨hpc, c, ht, .inl hc⟩)
  · obtain ⟨hop, hcount⟩ := fetchInstr_eq_ok hi
    rw [setIr_ir] at hop hcount
    rw [setIr_pc] at hcount
    obtain hdone | ⟨c, hc, ht⟩ := exec_cases hexec
    · exact .inr (.inr ⟨by omega, notFaulted_of_completes hdone (notFaulted_of_running hrun), i, hop, hdone⟩)
    · exact .inr (.inl ⟨hpc, c, ht, .inr ⟨i, hop, hc⟩⟩)

end Sys2Proof.Machine
end

section
/-! PROOF. Decode and encode agree (spec/30_encoding.md R80 to R84, R89, R94), and so the step executes what the bytes
at PC decode to (spec/40_engine_cycle.md R112 to R118). The decoder and the engine read their operands from different
places, a list and memory; both give back an instruction from its opcode and its own operand bytes. -/

namespace Sys2Proof

/-- Building from enough bytes takes the first `AA` of them as the operand bytes. -/
theorem operandBytes_build {m : Mnemonic} {bytes : List Byte} (h : operandCount m.opcode ≤ bytes.length) :
    (m.build (bytes.getD 0 0) (bytes.getD 1 0)).operandBytes = bytes.take (operandCount m.opcode) := by
  rw [operandCount_opcode m (bytes.getD 0 0) (bytes.getD 1 0)] at h ⊢
  match bytes with
  | [] => cases m <;> simp_all [Mnemonic.build, Instr.operandBytes]
  | [a] => cases m <;> simp_all [Mnemonic.build, Instr.operandBytes]
  | a :: b :: rest => cases m <;> rfl

/-- An instruction is its operation with its operand bytes; what stands where it has no operand is ignored. -/
theorem build_of_operandBytes {i : Instr} {a b : Byte} (ha : ∀ v, i.operandBytes[0]? = some v → a = v)
    (hb : ∀ v, i.operandBytes[1]? = some v → b = v) : i.mnemonic.build a b = i := by
  cases i <;> simp_all [Instr.mnemonic, Mnemonic.build, Instr.operandBytes]

theorem getD_append_of_getElem? {l rest : List Byte} {k : Nat} {v : Byte} (h : l[k]? = some v) :
    (l ++ rest).getD k 0 = v := by
  obtain ⟨hk, rfl⟩ := List.getElem?_eq_some_iff.1 h
  rw [List.getD_append _ _ _ _ hk, List.getD_eq_getElem _ _ hk]

/-- What the decoder answers, by the opcode and the bytes after it. -/
theorem decode_cons_eq_ok_iff {ir : Byte} {bytes rest : List Byte} {i : Instr} :
    decode (ir :: bytes) = .ok (i, rest) ↔ ir = i.opcode ∧ bytes = i.operandBytes ++ rest := by
  constructor
  · intro h
    simp only [decode] at h
    split at h
    · cases h
    · next m hm =>
      obtain rfl := decodeOpcode_eq_ok_iff.1 hm
      split at h
      · cases h
      · next hlen =>
        cases h
        rw [operandBytes_build (by omega), List.take_append_drop]
        exact ⟨by rw [Instr.opcode, mnemonic_build], rfl⟩
  · rintro ⟨rfl, rfl⟩
    have hcount : operandCount i.opcode = i.operandBytes.length := Machine.operandCount_of_opcode i
    have hbuild : i.mnemonic.build ((i.operandBytes ++ rest).getD 0 0) ((i.operandBytes ++ rest).getD 1 0) = i :=
      build_of_operandBytes (fun _ => getD_append_of_getElem?) (fun _ => getD_append_of_getElem?)
    have hop : decodeOpcode i.opcode = .ok i.mnemonic := decodeOpcode_opcode i.mnemonic
    simp only [decode, hop]
    rw [if_neg (by simp [hcount]), hbuild, hcount, List.drop_left]

/-- Settles O1: the byte list has an opcode in front, and `decode_cons_eq_ok_iff` reads the rest in both directions. -/
theorem decodeGivesExactlyTheEncodedInstruction : Obligations.DecodeGivesExactlyTheEncodedInstruction := by
  unfold Obligations.DecodeGivesExactlyTheEncodedInstruction
  intro bytes rest i
  cases bytes with
  | nil => simp [decode, encode]
  | cons ir bytes => rw [decode_cons_eq_ok_iff, encode, List.cons_append, List.cons.injEq]

/-- Settles O2: each list is its instruction's encoding, followed by the byte that is left over. -/
theorem writtenOutWordsDecode : Obligations.WrittenOutWordsDecode := by
  unfold Obligations.WrittenOutWordsDecode
  have decoded := fun (bytes rest : List Byte) (i : Instr) => (decodeGivesExactlyTheEncodedInstruction bytes rest i).2
  exact ⟨decoded _ _ _ rfl, decoded _ _ _ rfl, decoded _ _ _ rfl, decoded _ _ _ rfl, decoded _ _ _ rfl,
    decoded _ _ _ rfl, decoded _ _ _ rfl, decoded _ _ _ rfl⟩

end Sys2Proof

namespace Sys2Proof.Machine

/-- The bytes at PC are those of the addresses PC to PC + 2 that exist. -/
theorem codeBytes_eq_map_range (s : State) :
    s.codeBytes = (List.range (min 3 (256 - s.pc.toNat))).map fun k => s.mem.read (s.pc.toNat + k) := by
  have hn : min 3 (256 - s.pc.toNat) ≤ 3 := Nat.min_le_left ..
  rw [codeBytes_eq]
  generalize hmin : min 3 (256 - s.pc.toNat) = n at hn
  interval_cases n
  · simp [show ¬ s.pc.toNat < 256 by omega, show ¬ s.pc.toNat + 1 < 256 by omega, show ¬ s.pc.toNat + 2 < 256 by omega]
  · simp [show s.pc.toNat < 256 by omega, show ¬ s.pc.toNat + 1 < 256 by omega, show ¬ s.pc.toNat + 2 < 256 by omega]
  · simp [show s.pc.toNat < 256 by omega, show s.pc.toNat + 1 < 256 by omega, show ¬ s.pc.toNat + 2 < 256 by omega,
      List.range_succ]
  · simp [show s.pc.toNat < 256 by omega, show s.pc.toNat + 1 < 256 by omega, show s.pc.toNat + 2 < 256 by omega,
      List.range_succ]

/-- A byte of the list at PC is the byte of memory at its address. -/
theorem codeBytes_getElem {s : State} {k : Nat} {v : Byte} (h : s.codeBytes[k]? = some v) :
    s.pc.toNat + k ≤ 255 ∧ s.mem.read (s.pc.toNat + k) = v := by
  rw [codeBytes_eq_map_range, List.getElem?_map, Option.map_eq_some_iff] at h
  obtain ⟨l, hl, hread⟩ := h
  obtain ⟨hlt, rfl⟩ := List.getElem?_eq_some_iff.1 hl
  rw [List.length_range] at hlt
  rw [List.getElem_range] at hread
  exact ⟨by omega, hread⟩

/-- The engine reads the operand bytes of the instruction whose encoding stands at PC. -/
theorem fetchOperand_of_codeBytes {s : State} {i : Instr} {rest : List Byte} {k : Nat}
    (h : s.codeBytes = encode i ++ rest) :
    ∃ v, fetchOperand s (operandCount i.opcode) (k + 1) = .ok v ∧ ∀ w, i.operandBytes[k]? = some w → v = w := by
  have hcount := operandCount_of_opcode i
  by_cases hk : k < i.operandBytes.length
  · have hget : s.codeBytes[k + 1]? = some i.operandBytes[k] := by
      simp [h, encode, List.getElem?_append_left hk, hk]
    obtain ⟨hin, hread⟩ := codeBytes_getElem hget
    refine ⟨_, fetchOperand_of_le (by omega) hin, fun w hw => ?_⟩
    rw [hread]
    rw [List.getElem?_eq_getElem hk] at hw
    exact Option.some.inj hw
  · refine ⟨_, fetchOperand_of_absent (by omega), fun w hw => ?_⟩
    exact absurd (List.getElem?_eq_some_iff.1 hw).1 hk

theorem fetchInstr_of_codeBytes {s : State} {i : Instr} {rest : List Byte} (h : s.codeBytes = encode i ++ rest)
    (hir : s.ir = i.opcode) : fetchInstr s = .ok i := by
  obtain ⟨a, ha, hav⟩ := fetchOperand_of_codeBytes (k := 0) h
  obtain ⟨b, hb, hbv⟩ := fetchOperand_of_codeBytes (k := 1) h
  have hm : decodeIr s = .ok i.mnemonic := decodeIr_eq_ok_iff.2 hir
  simp only [fetchInstr, hm, hir, ha, hb, ok_bind, pure_eq_ok, build_of_operandBytes hav hbv]

/-! ## The step of a running core, by what its fetch answers -/

section Running

variable {s : State} (hrun : s.run = .running)
include hrun

theorem step_of_pc_gt (hpc : 255 < s.pc.toNat) : step s = .next (raise (.outOfBounds (Int.ofNat s.pc.toNat)) s) := by
  rw [step_of_running hrun, cycle, fetchOpcode_of_gt hpc]

variable (hpc : s.pc.toNat ≤ 255)
include hpc

theorem step_of_fetchInstr_ok {i : Instr} (h : fetchInstr (s.setIr (s.mem.read s.pc.toNat)) = .ok i) :
    step s = exec i (s.setIr (s.mem.read s.pc.toNat)) := by
  simp only [step_of_running hrun, cycle, fetchOpcode_of_le hpc, h]

theorem step_of_fetchInstr_error {c : Cause} (h : fetchInstr (s.setIr (s.mem.read s.pc.toNat)) = .error c) :
    step s = .next (raise c (s.setIr (s.mem.read s.pc.toNat))) := by
  simp only [step_of_running hrun, cycle, fetchOpcode_of_le hpc, h]

end Running

/-- Settles O3: bytes that decode to `i` begin with its encoding (`decodeGivesExactlyTheEncodedInstruction`), so the
opcode fetch reads `i`'s opcode and the rest of the fetch gives `i` back (`fetchInstr_of_codeBytes`). -/
theorem stepExecutesTheDecodedInstruction : Obligations.StepExecutesTheDecodedInstruction := by
  unfold Obligations.StepExecutesTheDecodedInstruction
  intro s i rest hrun hdec
  have hcode : s.codeBytes = encode i ++ rest := (decodeGivesExactlyTheEncodedInstruction _ _ _).1 hdec
  obtain ⟨hpc, hread⟩ := codeBytes_getElem (show s.codeBytes[0]? = some i.opcode by simp [hcode, encode])
  have hfetch : fetchInstr (s.setIr i.opcode) = .ok i := fetchInstr_of_codeBytes (s := s.setIr i.opcode) hcode rfl
  rw [Nat.add_zero] at hread
  rw [← hread] at hfetch
  rw [step_of_fetchInstr_ok hrun hpc hfetch, hread]
  rfl

end Sys2Proof.Machine
end

section
/-! PROOF. The fetch and its faults over whole steps (spec/40_engine_cycle.md section 2, spec/60_exceptions.md R223,
R224). -/

namespace Sys2Proof.Machine

open Sys2Proof.Claims Sys2Proof.Laws.Layout

/-- A step that fetched its opcode leaves that opcode in IR, whatever came after. -/
theorem ir_of_step {s t : State} (hpc : s.pc.toNat ≤ 255) (h : step s = .next t) : t.ir = s.mem.read s.pc.toNat := by
  obtain ⟨-, ⟨hgt, -⟩ | ⟨-, c, -, rfl⟩ | ⟨-, i, -, hexec⟩⟩ := step_cases h
  · omega
  · rfl
  · exact exec_keeps_ir hexec

/-- Settles O5: each clause is what the step of a running core is by what its fetch answers. -/
theorem opcodeFetchLoadsIrOrFaults : Obligations.OpcodeFetchLoadsIrOrFaults := by
  unfold Obligations.OpcodeFetchLoadsIrOrFaults
  exact fun s hrun => ⟨step_of_pc_gt hrun, fun hpc => ⟨fun t => ir_of_step hpc,
    fun i => step_of_fetchInstr_ok hrun hpc, fun c => step_of_fetchInstr_error hrun hpc⟩⟩

/-! ## The unsupported opcodes -/

/-- The claims' handler list is the supported opcodes with bit 5 clear. -/
theorem mem_handlerOpcodes_iff {ir : Byte} :
    ir ∈ handlerOpcodes ↔ ∃ m : Mnemonic, ir = m.opcode ∧ aluBit ir = false := by
  constructor
  · have h : ∀ v ∈ handlerOpcodes, ∃ m ∈ Mnemonic.all, v = m.opcode ∧ aluBit v = false := by decide
    exact fun hir => (h ir hir).imp fun m hm => hm.2
  · rintro ⟨m, rfl, h⟩
    cases m <;> revert h <;> decide

/-- The claims' ALU list is the supported opcodes with bit 5 set. -/
theorem mem_aluOpcodes_iff {ir : Byte} :
    ir ∈ aluOpcodes ↔ ∃ m : Mnemonic, ir = m.opcode ∧ aluBit ir = true := by
  constructor
  · have h : ∀ v ∈ aluOpcodes, ∃ m ∈ Mnemonic.all, v = m.opcode ∧ aluBit v = true := by decide
    exact fun hir => (h ir hir).imp fun m hm => hm.2
  · rintro ⟨m, rfl, h⟩
    cases m <;> revert h <;> decide

/-- An opcode byte of no operation raises at decode, before an operand byte is looked at. -/
theorem step_of_unsupported {s : State} (hrun : s.run = .running) (hpc : s.pc.toNat ≤ 255)
    (hno : ∀ m : Mnemonic, s.mem.read s.pc.toNat ≠ m.opcode) :
    step s = .next (raise (if aluBit (s.mem.read s.pc.toNat) then .unsupportedALUOperation (s.mem.read s.pc.toNat)
      else .unsupportedInstruction (s.mem.read s.pc.toNat)) (s.setIr (s.mem.read s.pc.toNat))) := by
  refine step_of_fetchInstr_error hrun hpc ?_
  rw [fetchInstr, decodeIr_eq_error_iff.2 ⟨hno, rfl⟩, error_bind]
  rfl

/-- A step that ends in one of the two unsupported faults fetched an opcode byte of no operation, of the class that the
kind says. -/
theorem unsupported_of_step {s t : State} {k : FaultKind} (h : step s = .next t) (hf : inFault t k)
    (hk : k = .unsupportedInstruction ∨ k = .unsupportedALUOperation) :
    s.pc.toNat ≤ 255 ∧ (∀ m : Mnemonic, s.mem.read s.pc.toNat ≠ m.opcode) ∧
      (aluBit (s.mem.read s.pc.toNat) = true ↔ k = .unsupportedALUOperation) := by
  obtain ⟨-, rfl⟩ | ⟨hpc, c, rfl, hc | ⟨i, -, hc⟩⟩ | ⟨-, hok, -⟩ := step_completes_or_raises h
  · rw [inFault_raise_iff] at hf
    subst hf
    simp [Cause.kind] at hk
  · rw [inFault_raise_iff] at hf
    obtain ⟨hno, rfl⟩ | ⟨n, -, -, -, -, -, rfl⟩ := fetchInstr_eq_error hc
    · refine ⟨hpc, hno, ?_⟩
      rw [setIr_ir] at hf
      subst hf
      split <;> simp_all [Cause.kind]
    · subst hf
      simp [Cause.kind] at hk
  · rw [inFault_raise_iff] at hf
    subst hf
    obtain ⟨h1, h2⟩ := kind_of_raises hc
    exact absurd hk (not_or.2 ⟨h1, h2⟩)
  · obtain ⟨r, hr, -⟩ := hf
    exact absurd hr (hok r)

/-- Settles O6: a byte with bit 5 clear and outside the handlers is the opcode of no operation, so decode raises
(`step_of_unsupported`), and the fault comes from nowhere else (`unsupported_of_step`). -/
theorem unsupportedDispatchOpcodesFault : Obligations.UnsupportedDispatchOpcodesFault := by
  unfold Obligations.UnsupportedDispatchOpcodesFault
  refine ⟨fun s hrun hpc hbit hmem => ?_, fun s t hrun h hf => ?_, ?_, by decide, by decide⟩
  · rw [mem_handlerOpcodes_iff] at hmem
    rw [step_of_unsupported hrun hpc fun m hm => hmem ⟨m, hm, hbit⟩, hbit]
    rfl
  · obtain ⟨hpc, hno, hbit⟩ := unsupported_of_step h hf (.inl rfl)
    refine ⟨hpc, by simpa using hbit, fun hmem => ?_⟩
    obtain ⟨m, hm, -⟩ := mem_handlerOpcodes_iff.1 hmem
    exact hno m hm
  · rfl

/-- Settles O7: as `unsupportedDispatchOpcodesFault`, for the bytes with bit 5 set. -/
theorem unsupportedAluOpcodesFault : Obligations.UnsupportedAluOpcodesFault := by
  unfold Obligations.UnsupportedAluOpcodesFault
  refine ⟨fun s hrun hpc hbit hmem => ?_, fun s t hrun h hf => ?_, ?_⟩
  · rw [mem_aluOpcodes_iff] at hmem
    rw [step_of_unsupported hrun hpc fun m hm => hmem ⟨m, hm, hbit⟩, hbit]
    rfl
  · obtain ⟨hpc, hno, hbit⟩ := unsupported_of_step h hf (.inr rfl)
    refine ⟨hpc, hbit.2 rfl, fun hmem => ?_⟩
    obtain ⟨m, hm, -⟩ := mem_aluOpcodes_iff.1 hmem
    exact hno m hm
  · rfl

/-! ## The operand fetch at the top of memory -/

theorem operandCount_le_two (m : Mnemonic) : operandCount m.opcode ≤ 2 := by
  cases m <;> decide

/-- The first operand byte that lies past the top is at 256: the operand fetch stops there. -/
theorem fetchInstr_of_past_top {s : State} {m : Mnemonic} (hm : s.ir = m.opcode) (hpc : s.pc.toNat ≤ 255)
    (htop : 255 < s.pc.toNat + operandCount s.ir) : fetchInstr s = .error (.outOfBounds 256) := by
  have hle : operandCount s.ir ≤ 2 := hm ▸ operandCount_le_two m
  simp only [fetchInstr, decodeIr_eq_ok_iff.2 hm, ok_bind]
  by_cases h255 : s.pc.toNat = 255
  · rw [fetchOperand_of_gt (k := 1) (by omega) (by omega), error_bind, h255]
    rfl
  · have h254 : s.pc.toNat = 254 := by omega
    rw [fetchOperand_of_le (k := 1) (by omega) (by omega), ok_bind, fetchOperand_of_gt (k := 2) (by omega) (by omega),
      error_bind, h254]
    rfl

/-- Settles O8: the fetch of the whole instruction fails with address 256 (`fetchInstr_of_past_top`). -/
theorem operandFetchPastTheTopFaults : Obligations.OperandFetchPastTheTopFaults := by
  unfold Obligations.OperandFetchPastTheTopFaults
  intro s m hrun hpc hdec htop
  exact step_of_fetchInstr_error hrun hpc
    (fetchInstr_of_past_top (s := s.setIr _) (decodeOpcode_eq_ok_iff.1 hdec) hpc htop)

end Sys2Proof.Machine
end

section
/-! PROOF. What a whole step can change: PC, RUN, memory and everything on a raise (spec/40_engine_cycle.md R110, R116,
spec/20_memory.md section 1, spec/60_exceptions.md section 3). Each is `step_completes_or_raises` with the lemma about
that element. -/

namespace Sys2Proof.Machine

open Sys2Proof.Claims Sys2Proof.Laws.Layout

/-! ## A step that raises -/

/-- Settles O39: a step that ends in a fault is one of the two raises, and a raise writes RUN alone. -/
theorem faultsArePrecise : Obligations.FaultsArePrecise := by
  unfold Obligations.FaultsArePrecise
  intro s t r h hr
  obtain ⟨hpc, rfl⟩ | ⟨hpc, c, rfl, -⟩ | ⟨-, hok, -⟩ := step_completes_or_raises h
  · obtain rfl := RunState.faulted.inj hr
    simp [show ¬ s.pc.toNat ≤ 255 by omega]
  · obtain rfl := RunState.faulted.inj hr
    simp [hpc]
  · exact absurd hr (hok r)

/-! ## PC -/

/-- An instruction that completed and does not set PC moves it past its bytes, without reduction. -/
theorem pc_toNat_of_completes {s t : State} {i : Instr} (h : Completes s i t) (hset : setsPc i = false)
    (hpc : s.pc.toNat + operandCount i.opcode ≤ 255) : t.pc.toNat = s.pc.toNat + operandCount i.opcode + 1 := by
  have hlen := operandBytes_length_le i
  rw [operandCount_of_opcode] at hpc ⊢
  obtain ht | ⟨hset', -⟩ := pc_of_completes h
  · rw [ht, BitVec.toNat_add, BitVec.toNat_ofNat]
    omega
  · rw [hset] at hset'
    cases hset'

/-- Settles O9: a step that raised nothing completed an instruction, for which `pc_toNat_of_completes` is the advance;
that a raise leaves PC is part of `faultsArePrecise`. -/
theorem advanceByTheFetchedOperandCount : Obligations.AdvanceByTheFetchedOperandCount := by
  unfold Obligations.AdvanceByTheFetchedOperandCount
  refine fun s t hrun h => ⟨fun hok hset => ?_, fun r hr => ?_⟩
  · obtain ⟨-, rfl⟩ | ⟨-, c, rfl, -⟩ | ⟨hpc, -, i, hop, hdone⟩ := step_completes_or_raises h
    · exact absurd rfl (hok _)
    · exact absurd rfl (hok _)
    · rw [hop, setsPcBit_of_opcode] at hset
      rw [hop] at hpc ⊢
      exact (pc_toNat_of_completes hdone hset hpc :)
  · obtain ⟨-, -, -, hpc, -⟩ := faultsArePrecise s t r h hr
    exact hpc

/-! ## RUN and memory -/

/-- HLT has no operand byte, so its fetch succeeds wherever its opcode stands. -/
theorem fetchInstr_of_hlt {s : State} (h : s.ir = 0x01#8) : fetchInstr s = .ok .hlt := by
  have hm : decodeIr s = .ok .hlt := decodeIr_eq_ok_iff.2 h
  have hcount : operandCount s.ir = 0 := by rw [h]; decide
  rw [fetchInstr, hm, hcount, fetchOperand_of_absent (by omega), fetchOperand_of_absent (by omega)]
  rfl

/-- Settles O33: of the ways a step ends, only a completed HLT leaves RUN halted (`run_of_completes`), and the byte
`0x01` is always fetched and executed as HLT (`fetchInstr_of_hlt`). -/
theorem haltedOnlyByHalt : Obligations.HaltedOnlyByHalt := by
  unfold Obligations.HaltedOnlyByHalt
  refine fun s t hrun h => ⟨fun hhalt => ?_, fun ⟨hpc, hread⟩ => ?_⟩
  · obtain ⟨-, rfl⟩ | ⟨-, c, rfl, -⟩ | ⟨hpc, -, i, hop, hdone⟩ := step_completes_or_raises h
    · cases hhalt
    · cases hhalt
    · obtain ⟨-, hsame⟩ | ⟨rfl, -⟩ := run_of_completes hdone
      · rw [hhalt, setIr_run, hrun] at hsame
        cases hsame
      · exact ⟨by omega, hop⟩
  · rw [step_of_fetchInstr_ok hrun hpc (fetchInstr_of_hlt hread)] at h
    obtain rfl := Host.Outcome.next.inj h
    rfl

/-- Settles O37: a raise writes no memory, and a completed instruction that does is PUSH or CALL and writes one byte, at
SP - 1 (`mem_of_completes`). -/
theorem onlyPushAndCallWriteMemory : Obligations.OnlyPushAndCallWriteMemory := by
  unfold Obligations.OnlyPushAndCallWriteMemory
  intro s t hrun h addr hne
  obtain ⟨-, rfl⟩ | ⟨-, c, rfl, -⟩ | ⟨-, -, i, hop, hdone⟩ := step_completes_or_raises h
  · exact absurd rfl hne
  · exact absurd rfl hne
  · obtain hmem | ⟨⟨a, ha⟩, hsp, v, hmem⟩ := mem_of_completes hdone
    · exact absurd (by rw [hmem]; rfl) hne
    · refine ⟨?_, ?_⟩
      · rw [hop]
        exact ha.imp (fun (e : i = .push a) => e ▸ rfl) fun (e : i = .call a) => e ▸ rfl
      · have haddr : addr = (s.sp - 1#8).toNat := by
          by_contra hother
          exact hne (by rw [hmem]; exact read_write_other _ v hother)
        have hne0 : s.sp ≠ 0#8 := hsp
        rw [haddr]
        show _ = s.sp.toNat
        bv_omega

end Sys2Proof.Machine
end

section
/-! PROOF. The invariant (spec/10_state.md section 5, spec/40_engine_cycle.md section 4, spec/60_exceptions.md sections
1 and 3). A raise keeps it when its cause records what its kind records, which every cause of the fetch and of the
instructions does; a completed instruction keeps it element by element. -/

namespace Sys2Proof.Machine

open Sys2Proof.Claims

/-! ## Raises -/

/-- The record that a raise of this cause writes is consistent. -/
theorem inv_raise {s : State} {c : Cause} (h : Inv s) (hc : FaultRecord.consistent ⟨c.kind, s.pc, s.ir, c.info⟩) :
    Inv (raise c s) where
  memWf := h.memWf
  pcRange := h.pcRange
  flagsLegal := h.flagsLegal
  record r hr := by
    obtain rfl := RunState.faulted.inj hr
    exact ⟨rfl, rfl, hc⟩

theorem consistent_of_fetchInstr_error {s : State} {c : Cause} (hpc : s.pc.toNat ≤ 255)
    (h : fetchInstr s = .error c) : FaultRecord.consistent ⟨c.kind, s.pc, s.ir, c.info⟩ := by
  obtain ⟨-, rfl⟩ | ⟨k, -, hk, -, hsecond, hgt, rfl⟩ := fetchInstr_eq_error h
  · split
    · next hbit => exact ⟨hbit, rfl⟩
    · next hbit => exact ⟨by simpa using hbit, rfl⟩
  · have htop : s.pc.toNat + k = 256 := by omega
    exact .inr (by rw [htop]; rfl)

theorem firstInvalid_gt {i : Instr} {r : Byte} (h : i.firstInvalid = some r) : 7 < r.toNat := by
  simpa using List.find?_some h

theorem consistent_of_raises {s : State} {i : Instr} {c : Cause} (h : Raises s i c) :
    FaultRecord.consistent ⟨c.kind, s.pc, s.ir, c.info⟩ := by
  cases h with
  | invalidRegister h => exact ⟨_, firstInvalid_gt h, rfl⟩
  | divisionByZero | popEmpty | retEmpty => rfl
  | pushAtZero => exact .inl rfl
  | popAtTop | retAtTop => exact .inr rfl

/-! ## Completed instructions -/

theorem mem_wf_of_completes {s t : State} {i : Instr} (h : Completes s i t) (hm : s.mem.wf) : t.mem.wf := by
  obtain hmem | ⟨-, -, v, hmem⟩ := mem_of_completes h
  · rw [hmem]
    exact hm
  · rw [hmem]
    exact write_wf hm (s.sp - 1#8).isLt v

theorem compareFlags_legal (u v : Byte) : (compareFlags u v).legal := by
  unfold compareFlags
  split
  · exact .inr (.inr (.inr rfl))
  · split
    · exact .inr (.inl rfl)
    · exact .inr (.inr (.inl rfl))

theorem fl_legal_of_completes {s t : State} {i : Instr} (h : Completes s i t) (hfl : s.fl.legal) : t.fl.legal := by
  obtain ht | ⟨u, v, ht⟩ := fl_of_completes h
  · rwa [ht]
  · rw [ht]
    exact compareFlags_legal u v

theorem zext9_toNat (v : Byte) : (zext9 v).toNat = v.toNat := by
  have := v.isLt
  rw [zext9, BitVec.toNat_setWidth]
  omega

/-- After an instruction whose bytes lie inside memory PC is at most 256: just past its last byte, or a byte. -/
theorem pc_le_of_completes {s t : State} {i : Instr} (h : Completes s i t)
    (hpc : s.pc.toNat + operandCount i.opcode ≤ 255) : t.pc.toNat ≤ 256 := by
  rw [operandCount_of_opcode] at hpc
  obtain ht | ⟨-, v, ht⟩ := pc_of_completes h
  · rw [ht, BitVec.toNat_add, BitVec.toNat_ofNat]
    omega
  · have := v.isLt
    rw [ht, zext9_toNat]
    omega

/-! ## The step -/

/-- The opcode fetch keeps the invariant of a running core: it has no fault record to disagree with IR. -/
theorem inv_setIr {s : State} (h : Inv s) (hrun : s.run = .running) (v : Byte) : Inv (s.setIr v) where
  memWf := h.memWf
  pcRange := h.pcRange
  flagsLegal := h.flagsLegal
  record r hr := absurd hr (notFaulted_of_running hrun r)

/-- Settles O49: `inv_raise` for the raises, and the lemma on each element for a completed instruction. -/
theorem stepKeepsTheInvariant : Obligations.StepKeepsTheInvariant := by
  unfold Obligations.StepKeepsTheInvariant
  intro s t hinv h
  have hrun : s.run = .running := (step_cases h).1
  obtain ⟨hpc, rfl⟩ | ⟨hpc, c, rfl, hc⟩ | ⟨hpc, hok, i, hop, hdone⟩ := step_completes_or_raises h
  · have htop : s.pc.toNat = 256 := by have := hinv.pcRange; omega
    exact inv_raise hinv (.inr (by rw [htop]; rfl))
  · refine inv_raise (inv_setIr hinv hrun _) ?_
    obtain hc | ⟨i, -, hc⟩ := hc
    · exact consistent_of_fetchInstr_error hpc hc
    · exact consistent_of_raises hc
  · rw [hop] at hpc
    exact {
      memWf := mem_wf_of_completes hdone hinv.memWf
      pcRange := pc_le_of_completes hdone hpc
      flagsLegal := fl_legal_of_completes hdone hinv.flagsLegal
      record := fun r hr => absurd hr (hok r) }

/-! ## Reset -/

theorem inv_reset : Inv State.reset where
  memWf := wf_nil
  pcRange := by decide
  flagsLegal := .inl reset_fl
  record r hr := by rw [reset_run] at hr; cases hr

/-- What a reset that is not refused gives, and when (70_reset_and_hazards.md R263). -/
theorem resetWith_eq_next_iff {program : List Byte} {s : State} :
    resetWith program = .next s ↔ program.length ≤ 256 ∧ s = loadedState program := by
  unfold resetWith
  split
  · next h => simp [h, eq_comm]
  · next h => simp [h]

/-- Settles O48: `inv_reset`, and loading a program changes only memory, whose form it keeps (`writeBytes_wf`). -/
theorem resetSatisfiesTheInvariant : Obligations.ResetSatisfiesTheInvariant := by
  unfold Obligations.ResetSatisfiesTheInvariant
  refine ⟨inv_reset, fun program s h => ?_⟩
  obtain ⟨-, rfl⟩ := resetWith_eq_next_iff.1 h
  exact { inv_reset with memWf := writeBytes_wf wf_nil 0 program }

/-! ## What reset loads -/

theorem loadedState_read {program : List Byte} (h : program.length ≤ 256) (k : Nat) :
    (loadedState program).mem.read k = if hk : k < program.length then program[k] else 0x00#8 := by
  rw [loadedState, setMem_mem, reset_mem, read_writeBytes wf_nil 0 program (by simpa using h)]
  simp

theorem loadedState_reg (program : List Byte) (r : RegIndex) :
    (loadedState program).reg r = if r = 7 then 0xF4#8 else 0x00#8 := by
  have h : ∀ r : RegIndex, State.reset.reg r = if r = 7 then 0xF4#8 else 0x00#8 := by decide
  exact h r

theorem loadedState_flags (program : List Byte) : (loadedState program).fl.toBits = 0b000#3 := by
  rw [loadedState, setMem_fl, reset_fl]
  decide

/-- Settles O47: a reset that is not refused gives `loadedState`, whose memory is the program over zeros
(`loadedState_read`) and whose other elements are those of `State.reset`. -/
theorem resetLoadsTheProgram : Obligations.ResetLoadsTheProgram := by
  unfold Obligations.ResetLoadsTheProgram
  refine fun program before => ⟨fun hlen => ?_, fun hlen => ?_, fun hnil => ?_⟩
  · refine ⟨_, resetWith_eq_next_iff.2 ⟨hlen, rfl⟩, rfl, loadedState_reg program 7, rfl, rfl, fun k hk => ?_,
      fun k hk _ => ?_, fun r hr => ?_, loadedState_flags program, rfl⟩
    · rw [loadedState_read hlen, dif_pos hk]
    · rw [loadedState_read hlen, dif_neg (by omega)]
    · rw [loadedState_reg, if_neg hr]
  · exact if_neg (show ¬ program.length ≤ 256 by omega)
  · subst hnil
    rfl

end Sys2Proof.Machine
end

section
/-! PROOF. The canonical form of memory is one (spec/20_memory.md section 1, log 7). A canonical memory lists a cell
exactly when the cell does not hold `MEM_FILL`, so the reads determine the first pair, and after it the rest. -/

namespace Sys2Proof.Machine

theorem lt_of_mem_tail {k : Nat} {w : Byte} {rest : Memory} (h : Memory.wf ((k, w) :: rest)) :
    ∀ c ∈ rest, k < c.1 := (List.pairwise_cons.1 h.1).1

/-- The first listed cell of a canonical memory reads as its byte, which is not what an unlisted cell reads as. -/
theorem read_head {k : Nat} {w : Byte} {rest : Memory} (h : Memory.wf ((k, w) :: rest)) :
    Memory.read ((k, w) :: rest) k = w ∧ w ≠ Config.memFill ∧ k < 256 := by
  obtain ⟨hk, hw⟩ := h.2 (k, w) (by simp)
  exact ⟨by simp [Memory.read], hw, hk⟩

/-- Nothing is listed below the first cell. -/
theorem read_below_head {k a : Nat} {w : Byte} {rest : Memory} (h : Memory.wf ((k, w) :: rest)) (ha : a < k) :
    Memory.read ((k, w) :: rest) a = Config.memFill := by
  refine read_of_lt_all fun c hc => ?_
  obtain rfl | hc := List.mem_cons.1 hc
  · exact ha
  · exact ha.trans (lt_of_mem_tail h c hc)

/-- Past the first cell, and below it, the rest reads as the whole does. -/
theorem read_tail {k : Nat} {w : Byte} {rest : Memory} (h : Memory.wf ((k, w) :: rest)) (a : Nat) :
    Memory.read rest a = if a = k then Config.memFill else Memory.read ((k, w) :: rest) a := by
  split
  · next hak => subst hak; exact read_of_lt_all (lt_of_mem_tail h)
  · next hak => rw [Memory.read, if_neg (Ne.symm hak)]

/-- The first cell of one canonical memory is not below that of another that reads alike. -/
theorem head_le_of_read_eq {k l : Nat} {v w : Byte} {p q : Memory} (hm : Memory.wf ((k, v) :: p))
    (hn : Memory.wf ((l, w) :: q))
    (h : ∀ a, a < 256 → Memory.read ((k, v) :: p) a = Memory.read ((l, w) :: q) a) : l ≤ k := by
  obtain ⟨hread, hne, hk⟩ := read_head hm
  by_contra hlt
  exact hne (hread.symm.trans ((h k hk).trans (read_below_head hn (by omega))))

theorem ne_nil_read {k : Nat} {v : Byte} {p : Memory} (hm : Memory.wf ((k, v) :: p)) :
    ¬ ∀ a, a < 256 → Memory.read ((k, v) :: p) a = Memory.read [] a := fun h => by
  obtain ⟨hread, hne, hk⟩ := read_head hm
  exact hne (hread.symm.trans (h k hk))

/-- Settles O46: by induction on the one memory; the heads have the same address (`head_le_of_read_eq`, both ways) and
so the same byte, and the tails again read alike (`read_tail`). -/
theorem equalReadsAreEqualMemories : Obligations.EqualReadsAreEqualMemories := by
  unfold Obligations.EqualReadsAreEqualMemories
  intro m
  induction m with
  | nil =>
    intro n _ hn h
    cases n with
    | nil => rfl
    | cons c q => exact absurd (fun a ha => (h a ha).symm) (ne_nil_read hn)
  | cons c p ih =>
    intro n hm hn h
    cases n with
    | nil => exact absurd h (ne_nil_read hm)
    | cons d q =>
      obtain ⟨k, v⟩ := c
      obtain ⟨l, w⟩ := d
      obtain rfl : k = l :=
        le_antisymm (head_le_of_read_eq hn hm fun a ha => (h a ha).symm) (head_le_of_read_eq hm hn h)
      obtain ⟨hv, -, hk⟩ := read_head hm
      have hvw : v = w := hv.symm.trans ((h k hk).trans (read_head hn).1)
      have hpq : p = q := ih q (wf_tail hm) (wf_tail hn) fun a ha => by rw [read_tail hm, read_tail hn, h a ha]
      rw [hvw, hpq]

end Sys2Proof.Machine
end

section
/-! PROOF. Frames (spec/41_alu.md section 1, spec/42_data_movement_output.md, spec/43_stack.md section 2,
spec/44_control_flow.md section 2, spec/45_system.md). For each element of the state, which instructions can write it;
a frame is then a list of elements its instructions do not write. -/

namespace Sys2Proof.Machine

open Sys2Proof.Claims

/-! ## Who writes which element, completed or raising -/

/-- The registers an instruction can write: its destination, and SP for the stack instructions. -/
def writesRegister : Instr → RegIndex → Prop
  | .add a _, r | .sub a _, r | .mul a _, r | .div a _, r | .mod a _, r | .and a _, r | .or a _, r | .xor a _, r
  | .not a, r | .shl a _, r | .shr a _, r | .ldi a _, r => r.val = a.toNat
  | .pop a, r => r = 7 ∨ r.val = a.toNat
  | .push _, r | .call _, r | .ret, r => r = 7
  | .cmp _ _, _ | .prn _, _ | .jmp _, _ | .jeq _, _ | .jne _, _ | .hlt, _ => False

theorem writesRegister_of_aluDestination {i : Instr} {a : Byte} (h : aluDestination i = some a) (r : RegIndex) :
    writesRegister i r ↔ r.val = a.toNat := by
  cases i <;> cases h <;> rfl

theorem reg_setReg_of_val_ne {s : State} {a : Byte} {ra r : RegIndex} (ha : a.toNat = ra.val)
    (hr : ¬ r.val = a.toNat) (v : Byte) : (s.setReg ra v).reg r = s.reg r :=
  reg_setReg_other s v fun h => hr (by rw [h, ha])

theorem reg_of_completes {s t : State} {i : Instr} {r : RegIndex} (h : Completes s i t)
    (hr : ¬ writesRegister i r) : t.reg r = s.reg r := by
  cases h with
  | alu hi ha =>
    rw [writesRegister_of_aluDestination (aluDestination_of_twoOperandAlu hi)] at hr
    exact reg_setReg_of_val_ne ha hr _
  | not ha | ldi imm ha => exact reg_setReg_of_val_ne ha hr _
  | push | call | ret => exact (reg_setSp s r _).trans (if_neg hr)
  | pop ha =>
    obtain ⟨hsp, hdest⟩ := not_or.1 hr
    exact ((reg_setSp _ r _).trans (if_neg hsp)).trans (reg_setReg_of_val_ne ha hdest _)
  | _ => rfl

theorem exec_keeps_reg {s t : State} {i : Instr} {r : RegIndex} (h : exec i s = .next t)
    (hr : ¬ writesRegister i r) : t.reg r = s.reg r := by
  obtain hc | ⟨c, -, rfl⟩ := exec_cases h
  · exact reg_of_completes hc hr
  · exact raise_reg s c r

theorem regs_ext {s t : State} (h : ∀ r : RegIndex, t.reg r = s.reg r) : t.regs = s.regs :=
  Vector.ext fun k hk => h ⟨k, hk⟩

theorem exec_keeps_regs {s t : State} {i : Instr} (h : exec i s = .next t) (hi : ∀ r, ¬ writesRegister i r) :
    t.regs = s.regs := regs_ext fun r => exec_keeps_reg h (hi r)

theorem exec_keeps_out {s t : State} {i : Instr} (h : exec i s = .next t) (hi : ∀ a, i ≠ .prn a) :
    t.out = s.out := by
  obtain hc | ⟨c, -, rfl⟩ := exec_cases h
  · obtain hout | ⟨a, v, rfl, -⟩ := out_of_completes hc
    · exact hout
    · exact absurd rfl (hi a)
  · rfl

theorem exec_keeps_mem {s t : State} {i : Instr} (h : exec i s = .next t) (hpush : ∀ a, i ≠ .push a)
    (hcall : ∀ a, i ≠ .call a) : t.mem = s.mem := by
  obtain hc | ⟨c, -, rfl⟩ := exec_cases h
  · obtain hmem | ⟨⟨a, ha⟩, -⟩ := mem_of_completes hc
    · exact hmem
    · exact absurd ha (not_or.2 ⟨hpush a, hcall a⟩)
  · rfl

/-- Only HLT writes RUN other than by raising. -/
theorem exec_run {s t : State} {i : Instr} (h : exec i s = .next t) (hi : i ≠ .hlt) :
    t.run = s.run ∨ ∃ r, t.run = .faulted r := by
  obtain hc | ⟨c, -, rfl⟩ := exec_cases h
  · obtain ⟨-, hrun⟩ | ⟨hlt, -⟩ := run_of_completes hc
    · exact .inl hrun
    · exact absurd hlt hi
  · exact .inr ⟨_, rfl⟩

/-- PUSH and CALL write memory at the address `pushAddress` computes, and not at all when it raises. -/
theorem exec_mem_of_pushAddress {s t : State} {i : Instr} (h : exec i s = .next t) :
    (∀ w, pushAddress s = .ok w → ∀ addr : Nat, addr ≠ w.toNat → t.mem.read addr = s.mem.read addr) ∧
    (∀ c, pushAddress s = .error c → ∀ addr : Nat, t.mem.read addr = s.mem.read addr) := by
  obtain hc | ⟨c, -, rfl⟩ := exec_cases h
  · obtain hmem | ⟨-, hsp, v, hmem⟩ := mem_of_completes hc
    · rw [hmem]
      exact ⟨fun _ _ _ _ => rfl, fun _ _ _ => rfl⟩
    · rw [hmem]
      refine ⟨fun w hw addr hne => read_write_other _ v ?_, fun c hc => ?_⟩
      · obtain ⟨-, rfl⟩ := pushAddress_eq_ok_iff.1 hw
        exact hne
      · exact absurd (pushAddress_eq_error_iff.1 hc).1 hsp
  · exact ⟨fun _ _ _ _ => rfl, fun _ _ _ => rfl⟩

/-! ## The frames -/

/-- Settles O34: the eleven operations write their destination register and nothing else of what is listed. -/
theorem aluFrame : Obligations.AluFrame := by
  unfold Obligations.AluFrame
  intro i a s t hd h
  have hmem : t.mem = s.mem := exec_keeps_mem h (by rintro b rfl; cases hd) (by rintro b rfl; cases hd)
  exact ⟨fun r hr => exec_keeps_reg h (mt (writesRegister_of_aluDestination hd r).1 hr),
    exec_keeps_fl (ne_cmp_of_aluDestination hd) h, exec_keeps_ir h, exec_keeps_out h (by rintro b rfl; cases hd),
    fun addr => by rw [hmem], exec_run h (by rintro rfl; cases hd)⟩

/-- Settles O35: each clause by the elements its instruction does not write; the clause about a raise because a
completed instruction is not faulted. -/
theorem registerOnlyFrame : Obligations.RegisterOnlyFrame := by
  unfold Obligations.RegisterOnlyFrame
  refine fun i s t h => ⟨?ldi, ?cmp, ?prn, ?jump, ?hlt, fun hs r hr => ?raise, exec_keeps_ir h, fun hi addr => ?memory⟩
  case ldi =>
    rintro a imm rfl
    exact ⟨fun r hr => exec_keeps_reg h hr, exec_keeps_fl (by simp) h, exec_keeps_out h nofun, exec_run h nofun⟩
  case cmp =>
    rintro a b rfl
    exact ⟨execCmp_keeps_regs h, exec_keeps_out h nofun, exec_run h nofun⟩
  case prn =>
    rintro a rfl
    exact ⟨exec_keeps_regs h nofun, exec_keeps_fl (by simp) h, exec_run h nofun⟩
  case jump =>
    rintro a (rfl | rfl | rfl) <;>
      exact ⟨exec_keeps_regs h nofun, exec_keeps_fl (by simp) h, exec_keeps_out h nofun, exec_run h nofun⟩
  case hlt =>
    rintro rfl
    obtain rfl : s.halt.advance 0 = t := Host.Outcome.next.inj h
    exact ⟨rfl, rfl, rfl, rfl⟩
  case raise =>
    obtain hc | ⟨c, -, rfl⟩ := exec_cases h
    · exact absurd hr (notFaulted_of_completes hc hs r)
    · obtain rfl := RunState.faulted.inj hr
      rfl
  case memory =>
    rw [exec_keeps_mem h (by rintro a rfl; simp at hi) (by rintro a rfl; simp at hi)]

/-- Settles O36: PUSH and CALL by `exec_mem_of_pushAddress`; POP and RET write no memory; and each writes the registers
of `writesRegister` alone. -/
theorem stackFrame : Obligations.StackFrame := by
  unfold Obligations.StackFrame
  refine fun i a s t h => ⟨?push, ?pop, ?ret, ?rest⟩
  case push =>
    rintro (rfl | rfl) <;> exact ⟨fun r hr => exec_keeps_reg h hr, exec_mem_of_pushAddress h⟩
  case pop =>
    rintro rfl
    exact ⟨fun r hsp hdest => exec_keeps_reg h (not_or.2 ⟨hsp, hdest⟩),
      fun addr => by rw [exec_keeps_mem h nofun nofun]⟩
  case ret =>
    rintro rfl
    exact ⟨fun r hr => exec_keeps_reg h hr, fun addr => by rw [exec_keeps_mem h nofun nofun]⟩
  case rest =>
    rintro (rfl | rfl | rfl | rfl) <;>
      exact ⟨exec_keeps_fl (by simp) h, exec_keeps_ir h, exec_keeps_out h nofun, exec_run h nofun⟩

/-- Settles O42: there is an answer (`exec_answers_next`), and it is a row of one of the two tables. -/
theorem execAlwaysAnswersANextState : Obligations.ExecAlwaysAnswersANextState := by
  unfold Obligations.ExecAlwaysAnswersANextState
  intro i s
  obtain ⟨t, h⟩ := exec_answers_next i s
  refine ⟨t, h, ?_⟩
  obtain hc | ⟨c, -, rfl⟩ := exec_cases h
  · exact (run_of_completes hc).imp And.right fun hhlt => .inl hhlt.2
  · exact .inr (.inr ⟨c.kind, c.info, rfl⟩)

end Sys2Proof.Machine
end

section
/-! PROOF. What no instruction reads: OUT and IR (spec/10_state.md sections 4 and 7). A row of the two tables whose
guards and result do not speak of an element is still a row after that element is replaced. -/

namespace Sys2Proof.Machine

/-- The state with other earlier output and another IR. -/
def State.inContext (s : State) (out : List Byte) (ir : Byte) : State := { s with out := out, ir := ir }

/-- Only PRN's row speaks of OUT, and none of IR. -/
theorem completes_inContext {s t : State} {i : Instr} (h : Completes s i t) (hprn : ∀ a, i ≠ .prn a)
    (out : List Byte) (ir : Byte) : Completes (s.inContext out ir) i (t.inContext out ir) := by
  cases h with
  | alu hi ha hb hv => exact .alu (s := s.inContext out ir) hi ha hb hv
  | not ha => exact .not (s := s.inContext out ir) ha
  | cmp ha hb => exact .cmp (s := s.inContext out ir) ha hb
  | ldi imm ha => exact .ldi (s := s.inContext out ir) imm ha
  | prn => exact absurd rfl (hprn _)
  | push ha hsp => exact .push (s := s.inContext out ir) ha hsp
  | pop ha hsp htop => exact .pop (s := s.inContext out ir) ha hsp htop
  | call ha hsp => exact .call (s := s.inContext out ir) ha hsp
  | ret hsp htop => exact .ret (s := s.inContext out ir) hsp htop
  | jump ha hi => exact .jump (s := s.inContext out ir) ha hi
  | fallThrough ha hi => exact .fallThrough (s := s.inContext out ir) ha hi
  | hlt => exact .hlt (s := s.inContext out ir)

/-- What an instruction appends to OUT, and that it appends the same whatever OUT and IR were. -/
theorem completes_emits {s t : State} {i : Instr} (h : Completes s i t) : ∃ emitted : List Byte,
    t.out = s.out ++ emitted ∧ emitted.length ≤ 1 ∧ (emitted ≠ [] → ∃ a, i = .prn a) ∧
    ∀ out ir, Completes (s.inContext out ir) i (t.inContext (out ++ emitted) ir) := by
  by_cases hprn : ∃ a, i = .prn a
  · obtain ⟨a, rfl⟩ := hprn
    cases h with
    | alu hi => cases hi
    | jump _ hi => simp at hi
    | fallThrough _ hi => simp at hi
    | @prn a ra ha =>
      exact ⟨[s.reg ra], rfl, le_rfl, fun _ => ⟨a, rfl⟩, fun out ir => .prn (s := s.inContext out ir) ha⟩
  · have hne : ∀ a, i ≠ .prn a := fun a ha => hprn ⟨a, ha⟩
    refine ⟨[], ?_, by simp, fun h => absurd rfl h, fun out ir => ?_⟩
    · rw [List.append_nil]
      exact exec_keeps_out (exec_of_completes h) hne
    · rw [List.append_nil]
      exact completes_inContext h hne out ir

/-- The guards of a raise speak of registers and memory alone. -/
theorem raises_inContext {s : State} {i : Instr} {c : Cause} (h : Raises s i c) (out : List Byte) (ir : Byte) :
    Raises (s.inContext out ir) i c := by
  cases h with
  | invalidRegister h => exact .invalidRegister h
  | divisionByZero hi ha hb hop => exact .divisionByZero hi ha hb hop
  | pushAtZero hi ha hsp => exact .pushAtZero hi ha hsp
  | popEmpty ha hsp => exact .popEmpty ha hsp
  | popAtTop ha hsp htop => exact .popAtTop ha hsp htop
  | retEmpty hsp => exact .retEmpty hsp
  | retAtTop htop => exact .retAtTop htop

/-- Settles O22: a completed instruction by `completes_emits`, a raise emits nothing and has the same cause. -/
theorem outputIsAppendedByPrintAndNeverRead : Obligations.OutputIsAppendedByPrintAndNeverRead := by
  unfold Obligations.OutputIsAppendedByPrintAndNeverRead
  intro i s t h
  obtain hc | ⟨c, hc, rfl⟩ := exec_cases h
  · obtain ⟨emitted, hout, hlen, hprn, hcontext⟩ := completes_emits hc
    refine ⟨emitted, hout, hlen, hprn, fun earlier => ?_⟩
    have ht : t.inContext (earlier ++ emitted) s.ir = { t with out := earlier ++ emitted } := by
      rw [← ir_of_completes hc]
      rfl
    exact (exec_of_completes (hcontext earlier s.ir)).trans (by rw [ht])
  · refine ⟨[], (List.append_nil _).symm, by simp, fun h => absurd rfl h, fun earlier => ?_⟩
    rw [List.append_nil]
    exact exec_of_raises (raises_inContext hc earlier s.ir)

/-- Settles O44: no row writes IR (`exec_keeps_ir`), and a completed one does the same with another
(`completes_emits`). -/
theorem instructionRegisterIsContextOnly : Obligations.InstructionRegisterIsContextOnly := by
  unfold Obligations.InstructionRegisterIsContextOnly
  refine fun i s t v h => ⟨exec_keeps_ir h, fun hok => ?_⟩
  obtain hc | ⟨c, -, rfl⟩ := exec_cases h
  · obtain ⟨emitted, hout, -, -, hcontext⟩ := completes_emits hc
    have hsame := exec_of_completes (hcontext s.out v)
    rw [← hout] at hsame
    exact hsame
  · exact absurd rfl (hok _)

end Sys2Proof.Machine
end

section
/-! PROOF. Which instructions raise `InvalidRegister` and `EmptyStack`, and what the outside sees of a fault
(spec/60_exceptions.md sections 1 and 3). -/

namespace Sys2Proof.Machine

open Sys2Proof.Claims

theorem not_wellFormed_of_raises {s : State} {i : Instr} {c : Cause} (h : Raises s i c)
    (hk : c.kind = .invalidRegister) : ¬ WellFormed i := by
  cases h with
  | invalidRegister h => exact not_wellFormed_of_firstInvalid h
  | _ => cases hk

/-- Settles O40: only the row of `firstInvalid` has this kind, and it is the row of every ill-formed instruction. -/
theorem invalidRegisterExactly : Obligations.InvalidRegisterExactly := by
  unfold Obligations.InvalidRegisterExactly
  refine fun i s t hs h => ⟨fun hf => ?_, fun hwf => ?_⟩
  · obtain ⟨c, hc, hk, -⟩ := exec_inFault hs h hf
    exact not_wellFormed_of_raises hc hk
  · rw [← firstInvalid_eq_none_iff, ← ne_eq, Option.ne_none_iff_exists'] at hwf
    obtain ⟨r, hr⟩ := hwf
    obtain rfl := Host.Outcome.next.inj ((exec_of_firstInvalid hr).symm.trans h)
    exact inFault_raise_iff.2 rfl

theorem emptyStack_of_raises {s : State} {i : Instr} {c : Cause} (h : Raises s i c) (hk : c.kind = .emptyStack) :
    ((∃ a : Byte, i = .pop a ∧ a.toNat ≤ 7) ∨ i = .ret) ∧ s.sp = Config.spInit := by
  cases h with
  | @popEmpty a ra ha hsp => exact ⟨.inl ⟨a, rfl, by omega⟩, hsp⟩
  | retEmpty hsp => exact ⟨.inr rfl, hsp⟩
  | _ => cases hk

theorem raises_emptyStack {s : State} {i : Instr} (hi : (∃ a : Byte, i = .pop a ∧ a.toNat ≤ 7) ∨ i = .ret)
    (hsp : s.sp = Config.spInit) : Raises s i .emptyStack := by
  obtain ⟨a, rfl, ha⟩ | rfl := hi
  · exact .popEmpty (ra := ⟨a.toNat, by omega⟩) rfl hsp
  · exact .retEmpty hsp

/-- Settles O41: the rows of this kind are those of POP and RET on the empty stack, in both directions. -/
theorem emptyStackExactly : Obligations.EmptyStackExactly := by
  unfold Obligations.EmptyStackExactly
  refine fun i s t hs h => ⟨fun hf => ?_, fun ⟨hi, hsp⟩ => ?_⟩
  · obtain ⟨c, hc, hk, -⟩ := exec_inFault hs h hf
    exact emptyStack_of_raises hc hk
  · obtain rfl := Host.Outcome.next.inj ((exec_of_raises (raises_emptyStack hi hsp)).symm.trans h)
    exact inFault_raise_iff.2 rfl

/-! ## The ports -/

theorem code_ne_zero (k : FaultKind) : k.code ≠ 0#3 := by
  cases k <;> decide

theorem faultKindPort_of_faulted {s : State} {r : FaultRecord} (h : s.run = .faulted r) :
    s.faultKindPort = r.kind.code := by
  simp [State.faultKindPort, State.faultRecord, h]

theorem faultKindPort_of_notFaulted {s : State} (h : s.notFaulted) : s.faultKindPort = 0#3 := by
  cases hrun : s.run with
  | running | halted => simp [State.faultKindPort, State.faultRecord, hrun]
  | faulted r => exact absurd hrun (h r)

/-- Settles O43: the port is the code of the standing fault, which is never 0, and 0 without one; the exit status is
read off RUN. -/
theorem faultPortShowsTheKind : Obligations.FaultPortShowsTheKind := by
  unfold Obligations.FaultPortShowsTheKind
  refine ⟨fun s => ⟨fun h r hr => ?_, faultKindPort_of_notFaulted⟩, fun s info => ⟨rfl, rfl, rfl, rfl, rfl, rfl⟩,
    fun s hs => ?_, fun s r hr => ?_⟩
  · exact code_ne_zero r.kind ((faultKindPort_of_faulted hr).symm.trans h)
  · simp only [State.exitStatus, hs]
  · simp only [State.exitStatus, hr, faultKindPort_of_faulted hr]

end Sys2Proof.Machine
end

section
/-! PROOF. The ALU's rules (spec/41_alu.md). Each instruction is its row of the tables: what is left of a rule is the
encoding, which operand fails first, and the arithmetic of the datapath. -/

namespace Sys2Proof

/-! ## Which operand fails first -/

theorem firstInvalid_of_first {i : Instr} {a : Byte} {rest : List Byte} (h : i.registerOperands = a :: rest)
    (ha : 7 < a.toNat) : i.firstInvalid = some a := by
  simp [Instr.firstInvalid, h, ha]

theorem firstInvalid_of_second {i : Instr} {a b : Byte} (h : i.registerOperands = [a, b]) (ha : a.toNat ≤ 7)
    (hb : 7 < b.toNat) : i.firstInvalid = some b := by
  simp [Instr.firstInvalid, h, ha, hb]

end Sys2Proof

namespace Sys2Proof.Machine

open Sys2Proof.Claims

theorem raises_first {i : Instr} {a : Byte} {rest : List Byte} (h : i.registerOperands = a :: rest) (s : State)
    (ha : 7 < a.toNat) : raisesInvalidRegister i s a := exec_of_firstInvalid (firstInvalid_of_first h ha)

theorem raises_second {i : Instr} {a b : Byte} (h : i.registerOperands = [a, b]) (s : State) (ha : a.toNat ≤ 7)
    (hb : 7 < b.toNat) : raisesInvalidRegister i s b := exec_of_firstInvalid (firstInvalid_of_second h ha hb)

/-! ## The whole next state, in the claims' terms -/

/-- The advance over `n` operand bytes writes PC and nothing else. -/
theorem advance_eq (s : State) (n : Nat) : s.advance n = { s with pc := pcPlus s (n + 1) } := by
  rw [← pc_add_ofNat_eq_pcPlus]
  rfl

section TwoOperandAlu

variable {i : Instr} {a b : Byte} {op : Byte → Byte → Except Cause Byte}
  (hi : twoOperandAlu i = some (a, b, op))
include hi

theorem encode_of_twoOperandAlu : encode i = [i.opcode, a, b] := by
  rw [encode, operandBytes_of_twoOperandAlu hi]

variable {ra rb : RegIndex} (ha : a.toNat = ra.val) (hb : b.toNat = rb.val) {s : State}
include ha hb

theorem exec_of_op_ok {v : Byte} (hv : op (s.reg ra) (s.reg rb) = .ok v) :
    exec i s = .next { s with regs := put s.regs ra v, pc := pcPlus s 3 } :=
  (exec_of_completes (.alu hi ha hb hv)).trans (by rw [setReg_advance_two])

theorem exec_of_op_error (hv : op (s.reg ra) (s.reg rb) = .error .divisionByZero) :
    exec i s = .next (faulted s .divisionByZero none) := exec_of_raises (.divisionByZero hi ha hb hv)

end TwoOperandAlu

/-- The rule of an operation without a fault of its own, from its result as a number. -/
theorem twoOperandRule_of_result {i : Instr} {a b : Byte} {f : Byte → Byte → Byte} {result : Nat → Nat → Nat}
    (hi : twoOperandAlu i = some (a, b, fun u v => .ok (f u v)))
    (hf : ∀ u v : Byte, f u v = BitVec.ofNat 8 (result u.toNat v.toNat)) :
    twoOperandRule i i.opcode a b result := by
  have hops := registerOperands_of_twoOperandAlu hi
  refine ⟨encode_of_twoOperandAlu hi, fun s => ⟨fun ra rb ha hb => ?_, raises_first hops s, raises_second hops s⟩⟩
  exact exec_of_op_ok hi ha hb (by rw [hf])

/-- The rule of a division, from its result for a divisor other than 0. -/
theorem divisionRule_of_result {i : Instr} {a b : Byte} {op : Byte → Byte → Except Cause Byte}
    {result : Nat → Nat → Nat} (hi : twoOperandAlu i = some (a, b, op))
    (hzero : ∀ u v : Byte, v.toNat = 0 → op u v = .error .divisionByZero)
    (hne : ∀ u v : Byte, v.toNat ≠ 0 → op u v = .ok (BitVec.ofNat 8 (result u.toNat v.toNat))) :
    divisionRule i i.opcode a b result := by
  have hops := registerOperands_of_twoOperandAlu hi
  refine ⟨encode_of_twoOperandAlu hi, fun s => ⟨fun ra rb ha hb => ?_, raises_first hops s, raises_second hops s⟩⟩
  exact ⟨fun h => exec_of_op_ok hi ha hb (hne _ _ h), fun h => exec_of_op_error hi ha hb (hzero _ _ h)⟩

/-! ## The datapath's arithmetic -/

/-- A number is kept to 8 bits by its remainder modulo 256 (41_alu.md R153). -/
theorem ofNat_eight_mod (n : Nat) : BitVec.ofNat 8 (n % 256) = BitVec.ofNat 8 n :=
  BitVec.eq_of_toNat_eq (by simp)

theorem aluSub_eq (u v : Byte) :
    aluSub u v = BitVec.ofNat 8 (if v.toNat ≤ u.toNat then u.toNat - v.toNat else u.toNat + 256 - v.toNat) := by
  have hu := u.isLt
  have hv := v.isLt
  apply BitVec.eq_of_toNat_eq
  simp only [aluSub, BitVec.toNat_ofInt, BitVec.toNat_ofNat, Int.ofNat_eq_natCast]
  split <;> omega

theorem aluDiv_of_ne {u v : Byte} (h : v.toNat ≠ 0) : aluDiv u v = .ok (BitVec.ofNat 8 (u.toNat / v.toNat)) :=
  if_neg h

theorem aluMod_of_ne {u v : Byte} (h : v.toNat ≠ 0) : aluMod u v = .ok (BitVec.ofNat 8 (u.toNat % v.toNat)) :=
  if_neg h

theorem aluDiv_of_zero {u v : Byte} (h : v.toNat = 0) : aluDiv u v = .error .divisionByZero := if_pos h

theorem aluMod_of_zero {u v : Byte} (h : v.toNat = 0) : aluMod u v = .error .divisionByZero := if_pos h

theorem aluNot_toNat (u : Byte) : (aluNot u).toNat = 255 - u.toNat := by
  rw [aluNot, BitVec.toNat_ofNat]
  omega

theorem aluNot_eq (u : Byte) : aluNot u = ~~~u :=
  BitVec.eq_of_toNat_eq (by rw [aluNot_toNat, BitVec.toNat_not])

theorem aluShl_getLsbD (u v : Byte) {k : Nat} (hk : k < 8) :
    (aluShl u v).getLsbD k = (decide (v.toNat ≤ k) && u.getLsbD (k - v.toNat)) := by
  rw [aluShl, BitVec.getLsbD_ofNat, Nat.testBit_mul_two_pow]
  simp [hk, BitVec.getLsbD]

theorem aluShr_getLsbD (u v : Byte) {k : Nat} (hk : k < 8) : (aluShr u v).getLsbD k = u.getLsbD (k + v.toNat) := by
  rw [aluShr, BitVec.getLsbD_ofNat, Nat.testBit_div_two_pow]
  simp [hk, BitVec.getLsbD]

/-- A count of 8 or more shifts every bit out (decision D20). -/
theorem aluShl_of_ge {u v : Byte} (h : 8 ≤ v.toNat) : aluShl u v = 0#8 := by
  apply BitVec.eq_of_getLsbD_eq
  intro k hk
  simp [aluShl_getLsbD u v hk, show ¬ v.toNat ≤ k by omega]

theorem aluShr_of_ge {u v : Byte} (h : 8 ≤ v.toNat) : aluShr u v = 0#8 := by
  apply BitVec.eq_of_getLsbD_eq
  intro k hk
  rw [aluShr_getLsbD u v hk, BitVec.getLsbD_of_ge u _ (by omega), BitVec.getLsbD_zero]

/-- The three flags of a compare are the three outcomes of the unsigned comparison. -/
theorem compareFlags_iff (u v : Byte) :
    ((compareFlags u v).e = true ↔ u = v) ∧ ((compareFlags u v).l = true ↔ u.toNat < v.toNat) ∧
      ((compareFlags u v).g = true ↔ v.toNat < u.toNat) := by
  rw [← BitVec.toNat_inj]
  obtain h | h | h := lt_trichotomy u.toNat v.toNat
  · rw [compareFlags_lt h]
    exact ⟨by simp [h.ne], by simp [h], by simp [h.le]⟩
  · rw [compareFlags_eq (BitVec.toNat_inj.1 h)]
    exact ⟨by simp [h], by simp [h], by simp [h]⟩
  · rw [compareFlags_gt h]
    exact ⟨by simp [h.ne'], by simp [h.le], by simp [h]⟩

/-! ## The rules -/

/-- Settles O10: each by `twoOperandRule_of_result` with its result as a number. -/
theorem addSubMulRules : Obligations.AddSubMulRules := by
  unfold Obligations.AddSubMulRules
  exact fun a b => ⟨twoOperandRule_of_result (i := .add a b) rfl fun u v => (ofNat_eight_mod _).symm,
    twoOperandRule_of_result (i := .sub a b) rfl aluSub_eq,
    twoOperandRule_of_result (i := .mul a b) rfl fun u v => (ofNat_eight_mod _).symm⟩

/-- Settles O11: the row of the two-operand template, whose result the library reads bit by bit. -/
theorem andOrXorRules : Obligations.AndOrXorRules := by
  unfold Obligations.AndOrXorRules
  intro a b i opcode bit h
  obtain ⟨f, hi, hop, hbit⟩ : ∃ f : Byte → Byte → Byte, twoOperandAlu i = some (a, b, fun u v => .ok (f u v)) ∧
      i.opcode = opcode ∧ ∀ u v k, (f u v).getLsbD k = bit (u.getLsbD k) (v.getLsbD k) := by
    obtain ⟨h, rfl⟩ | ⟨h, rfl⟩ | ⟨h, rfl⟩ := h
    · cases h; exact ⟨aluAnd, rfl, rfl, fun u v k => BitVec.getLsbD_and⟩
    · cases h; exact ⟨aluOr, rfl, rfl, fun u v k => BitVec.getLsbD_or⟩
    · cases h; exact ⟨aluXor, rfl, rfl, fun u v k => BitVec.getLsbD_xor⟩
  have hops := registerOperands_of_twoOperandAlu hi
  subst hop
  refine ⟨encode_of_twoOperandAlu hi, fun s => ⟨fun ra rb ha hb => ?_, raises_first hops s, raises_second hops s⟩⟩
  exact ⟨_, exec_of_op_ok hi ha hb rfl, fun k _ => hbit _ _ k⟩

/-- Settles O12: each by `divisionRule_of_result`. -/
theorem divModResults : Obligations.DivModResults := by
  unfold Obligations.DivModResults
  exact fun a b => ⟨
    divisionRule_of_result (i := .div a b) rfl (fun _ _ => aluDiv_of_zero) fun _ _ => aluDiv_of_ne,
    divisionRule_of_result (i := .mod a b) rfl (fun _ _ => aluMod_of_zero) fun _ _ => aluMod_of_ne⟩

/-- Settles O14: the result is the complement, as a number (`aluNot_toNat`) and bit by bit (`aluNot_eq`). -/
theorem notResult : Obligations.NotResult := by
  unfold Obligations.NotResult
  refine fun a s => ⟨rfl, fun ra ha => ?_, raises_first rfl s⟩
  refine ⟨aluNot (s.reg ra), (exec_of_completes (.not ha)).trans (by rw [advance_eq]; rfl), aluNot_toNat _,
    fun k hk => ?_⟩
  rw [aluNot_eq, BitVec.getLsbD_not]
  simp [hk]

/-- Settles O15: both are rows of the template, with the bits of `aluShl_getLsbD` and `aluShr_getLsbD`. -/
theorem shiftResults : Obligations.ShiftResults := by
  unfold Obligations.ShiftResults
  refine fun a b s => ⟨rfl, rfl, fun ra rb ha hb => ?_, fun ha => ⟨raises_first rfl s ha, raises_first rfl s ha⟩,
    fun ha hb => ⟨raises_second rfl s ha hb, raises_second rfl s ha hb⟩⟩
  exact ⟨_, _, exec_of_op_ok (i := .shl a b) rfl ha hb rfl, exec_of_op_ok (i := .shr a b) rfl ha hb rfl,
    fun k => aluShl_getLsbD _ _, fun k => aluShr_getLsbD _ _, fun h => ⟨aluShl_of_ge h, aluShr_of_ge h⟩⟩

/-- CMP of two registers writes FL and advances. -/
theorem execCmp_eq {a b : Byte} {ra rb : RegIndex} (ha : a.toNat = ra.val) (hb : b.toNat = rb.val) (s : State) :
    exec (.cmp a b) s = .next { s with fl := compareFlags (s.reg ra) (s.reg rb), pc := pcPlus s 3 } :=
  (exec_of_completes (.cmp ha hb)).trans (by rw [advance_eq]; rfl)

/-- Settles O16: the flags are those of the comparison (`compareFlags_iff`). -/
theorem compareResult : Obligations.CompareResult := by
  unfold Obligations.CompareResult
  refine fun a b s => ⟨rfl, fun ra rb ha hb => ?_, raises_first rfl s, raises_second rfl s⟩
  exact ⟨_, execCmp_eq ha hb s, compareFlags_iff _ _⟩

/-! ## One register named twice -/

theorem aluAdd_same (u : Byte) : aluAdd u u = BitVec.ofNat 8 (2 * u.toNat) := by
  rw [aluAdd, two_mul]

theorem aluSub_same (u : Byte) : aluSub u u = 0#8 := by
  rw [aluSub, sub_self]
  rfl

theorem aluMul_same (u : Byte) : aluMul u u = BitVec.ofNat 8 (u.toNat ^ 2) := by
  rw [aluMul, sq]

theorem aluDiv_same {u : Byte} (h : u.toNat ≠ 0) : aluDiv u u = .ok 1#8 := by
  rw [aluDiv_of_ne h, Nat.div_self (Nat.pos_of_ne_zero h)]

theorem aluMod_same {u : Byte} (h : u.toNat ≠ 0) : aluMod u u = .ok 0#8 := by
  rw [aluMod_of_ne h, Nat.mod_self]

theorem aluShl_same (u : Byte) :
    aluShl u u = if u.toNat < 8 then BitVec.ofNat 8 (u.toNat * 2 ^ u.toNat) else 0#8 := by
  split
  · rfl
  · exact aluShl_of_ge (by omega)

theorem aluShr_same (u : Byte) :
    aluShr u u = if u.toNat < 8 then BitVec.ofNat 8 (u.toNat / 2 ^ u.toNat) else 0#8 := by
  split
  · rfl
  · exact aluShr_of_ge (by omega)

/-- A division of a register by itself raises for the value 0. -/
theorem exec_division_same {i : Instr} {a : Byte} {r : RegIndex} {op : Byte → Byte → Except Cause Byte} {v : Byte}
    (hi : twoOperandAlu i = some (a, a, op)) (ha : a.toNat = r.val)
    (hzero : ∀ u : Byte, u.toNat = 0 → op u u = .error .divisionByZero)
    (hne : ∀ u : Byte, u.toNat ≠ 0 → op u u = .ok v) (s : State) :
    exec i s = if (s.reg r).toNat = 0 then .next (faulted s .divisionByZero none)
      else .next { s with regs := put s.regs r v, pc := pcPlus s 3 } := by
  split
  · next h => exact exec_of_op_error hi ha ha (hzero _ h)
  · next h => exact exec_of_op_ok hi ha ha (hne _ h)

/-- Settles O19: each operation is its row at equal operands, with the result of its lemma above. -/
theorem sameRegisterTwice : Obligations.SameRegisterTwice := by
  unfold Obligations.SameRegisterTwice
  intro a r s ha
  have row {i : Instr} {f : Byte → Byte → Byte} {v : Byte}
      (hi : twoOperandAlu i = some (a, a, fun x y => .ok (f x y))) (hv : f (s.reg r) (s.reg r) = v) :
      exec i s = .next { s with regs := put s.regs r v, pc := pcPlus s 3 } :=
    exec_of_op_ok hi ha ha (congrArg Except.ok hv)
  refine ⟨row rfl (aluAdd_same _), row rfl (aluSub_same _), row rfl (aluMul_same _),
    exec_division_same rfl ha (fun _ => aluDiv_of_zero) (fun _ => aluDiv_same) s,
    exec_division_same rfl ha (fun _ => aluMod_of_zero) (fun _ => aluMod_same) s,
    row rfl BitVec.and_self, row rfl BitVec.or_self, row rfl BitVec.xor_self, row rfl (aluShl_same _),
    row rfl (aluShr_same _), ?_⟩
  rw [execCmp_eq ha ha, compareFlags_eq rfl]

end Sys2Proof.Machine
end

section
/-! PROOF. PRN, the stack instructions, the control transfers and HLT (spec/42_data_movement_output.md,
spec/43_stack.md, spec/44_control_flow.md, spec/45_system.md). -/

namespace Sys2Proof.Machine

open Sys2Proof.Claims

/-! ## PRN and HLT -/

/-- Settles O21: the row of PRN; the port and the rendering see the one appended value. -/
theorem printRule : Obligations.PrintRule := by
  unfold Obligations.PrintRule
  refine fun a s => ⟨rfl, fun ra ha => ⟨_, exec_of_completes (.prn ha), by rw [advance_eq]; rfl, ?_, ?_⟩,
    raises_first rfl s⟩
  · simp [outPort]
  · simp [State.rendered, renderByte]

/-- Settles O32: the row of HLT. -/
theorem haltResult : Obligations.HaltResult := by
  unfold Obligations.HaltResult
  exact fun s => ⟨rfl, (exec_of_completes .hlt).trans (by rw [advance_eq]; rfl)⟩

/-! ## Jumps -/

theorem zext9_eq_ofNat (v : Byte) : zext9 v = BitVec.ofNat 9 v.toNat := (BitVec.ofNat_toNat 9 v).symm

section Jumps

variable {s : State} {i : Instr} {a : Byte} {ra : RegIndex} (ha : a.toNat = ra.val)
include ha

theorem exec_of_jump (hi : i = .jmp a ∨ (i = .jeq a ∧ s.fl.e = true) ∨ (i = .jne a ∧ s.fl.e = false)) :
    exec i s = .next { s with pc := BitVec.ofNat 9 (s.reg ra).toNat } := by
  rw [exec_of_completes (.jump ha hi), zext9_eq_ofNat]
  rfl

theorem exec_of_fallThrough (hi : (i = .jeq a ∧ s.fl.e = false) ∨ (i = .jne a ∧ s.fl.e = true)) :
    exec i s = .next { s with pc := pcPlus s 2 } := by
  rw [exec_of_completes (.fallThrough ha hi), advance_eq]

theorem execJeq_eq : exec (.jeq a) s = .next { s with
    pc := if s.fl.e = true then BitVec.ofNat 9 (s.reg ra).toNat else pcPlus s 2 } := by
  cases he : s.fl.e with
  | true => exact exec_of_jump ha (.inr (.inl ⟨rfl, he⟩))
  | false => exact exec_of_fallThrough ha (.inl ⟨rfl, he⟩)

theorem execJne_eq : exec (.jne a) s = .next { s with
    pc := if s.fl.e = false then BitVec.ofNat 9 (s.reg ra).toNat else pcPlus s 2 } := by
  cases he : s.fl.e with
  | true => exact exec_of_fallThrough ha (.inr ⟨rfl, he⟩)
  | false => exact exec_of_jump ha (.inr (.inr ⟨rfl, he⟩))

end Jumps

/-- Settles O29: the row of a jump. -/
theorem jumpRule : Obligations.JumpRule := by
  unfold Obligations.JumpRule
  exact fun a s => ⟨rfl, fun ra ha => exec_of_jump ha (.inl rfl), raises_first rfl s⟩

/-- Settles O30: JEQ and JNE by the value of `E`; the operand check is before the test. -/
theorem conditionalJumpResults : Obligations.ConditionalJumpResults := by
  unfold Obligations.ConditionalJumpResults
  exact fun a s => ⟨rfl, rfl, fun ra ha => ⟨execJeq_eq ha, execJne_eq ha⟩,
    fun ha => ⟨raises_first rfl s ha, raises_first rfl s ha⟩⟩

/-- Two advances in sequence. -/
theorem pcPlus_pcPlus (s : State) (f : Flags) (j k : Nat) :
    pcPlus { s with fl := f, pc := pcPlus s j } k = pcPlus s (j + k) := by
  simp only [pcPlus, BitVec.toNat_ofNat]
  apply BitVec.eq_of_toNat_eq
  simp only [BitVec.toNat_ofNat]
  omega

/-- Settles O31: after CMP `E` says whether the values are equal (`compareFlags_iff`), and the jumps test `E`. -/
theorem compareThenConditionalJump : Obligations.CompareThenConditionalJump := by
  unfold Obligations.CompareThenConditionalJump
  intro a b c ra rb rc s ha hb hc
  obtain ⟨he, -⟩ := compareFlags_iff (s.reg ra) (s.reg rb)
  refine ⟨_, _, _, execCmp_eq ha hb s, execJeq_eq hc, execJne_eq hc, ?_, ?_⟩
  · simp only [he, pcPlus_pcPlus]
    rfl
  · simp only [← Bool.not_eq_true, he, pcPlus_pcPlus]
    rfl

/-! ## PUSH and CALL -/

theorem toNat_sub_one {v : Byte} (h : v ≠ 0#8) : (v - 1#8).toNat = v.toNat - 1 := by
  bv_omega

theorem pushed_eq {s : State} (hsp : s.reg 7 ≠ 0#8) (v : Byte) : s.pushed v =
    { s with regs := put s.regs 7 (s.reg 7 - 1#8), mem := s.mem.write ((s.reg 7).toNat - 1) v } := by
  rw [← toNat_sub_one hsp]
  rfl

/-- The operand register of PUSH and CALL is read after the decrement (decision D12). -/
theorem reg_after_decrement (s : State) (ra : RegIndex) :
    (s.setSp (s.sp - 1#8)).reg ra = if ra = 7 then s.reg 7 - 1#8 else s.reg ra := reg_setSp s ra _

theorem execPush_eq {a : Byte} {ra : RegIndex} {s : State} (ha : a.toNat = ra.val) (hsp : s.reg 7 ≠ 0#8) :
    exec (.push a) s = .next { s with
      regs := put s.regs 7 (s.reg 7 - 1#8),
      mem := s.mem.write ((s.reg 7).toNat - 1) (if ra = 7 then s.reg 7 - 1#8 else s.reg ra),
      pc := pcPlus s 2 } := by
  rw [exec_of_completes (.push ha hsp), reg_after_decrement, pushed_eq hsp, advance_eq]
  rfl

/-- Settles O23: the row of PUSH (`execPush_eq`) and its two raises. -/
theorem pushResult : Obligations.PushResult := by
  unfold Obligations.PushResult
  exact fun a s => ⟨rfl, fun ra ha => ⟨execPush_eq ha, fun hsp => exec_of_raises (.pushAtZero (.inl rfl) ha hsp)⟩,
    raises_first rfl s⟩

theorem execCall_eq {a : Byte} {ra : RegIndex} {s : State} (ha : a.toNat = ra.val) (hsp : s.reg 7 ≠ 0#8) :
    exec (.call a) s = .next { s with
      regs := put s.regs 7 (s.reg 7 - 1#8),
      mem := s.mem.write ((s.reg 7).toNat - 1) (BitVec.ofNat 8 ((s.pc.toNat + 2) % 256)),
      pc := BitVec.ofNat 9 (if ra = 7 then (s.reg 7).toNat - 1 else (s.reg ra).toNat) } := by
  have htarget : zext9 (if ra = 7 then s.reg 7 - 1#8 else s.reg ra) =
      BitVec.ofNat 9 (if ra = 7 then (s.reg 7).toNat - 1 else (s.reg ra).toNat) := by
    rw [zext9_eq_ofNat, apply_ite BitVec.toNat, toNat_sub_one hsp]
  rw [exec_of_completes (.call ha hsp), reg_after_decrement, htarget, pushed_eq hsp, ofNat_eight_mod]
  rfl

/-- Settles O26: the row of CALL (`execCall_eq`) and its two raises. -/
theorem callResult : Obligations.CallResult := by
  unfold Obligations.CallResult
  exact fun a s => ⟨rfl, fun ra ha => ⟨execCall_eq ha, fun hsp => exec_of_raises (.pushAtZero (.inr rfl) ha hsp)⟩,
    raises_first rfl s⟩

/-! ## POP and RET -/

theorem popBase_of_ne {s : State} {ra : RegIndex} (h : ra ≠ 7) : s.popBase ra = s.reg 7 := if_neg h

theorem popBase_seven (s : State) : s.popBase 7 = s.mem.read (s.reg 7).toNat := if_pos rfl

theorem execPop_eq {a : Byte} {ra : RegIndex} {s : State} (ha : a.toNat = ra.val) (hsp : s.reg 7 ≠ 0xF4#8)
    (htop : s.popBase ra ≠ 0xFF#8) :
    exec (.pop a) s = .next { s with
      regs := put (put s.regs ra (s.mem.read (s.reg 7).toNat)) 7 (s.popBase ra + 1#8), pc := pcPlus s 2 } := by
  rw [exec_of_completes (.pop ha hsp htop), advance_eq]
  rfl

theorem put_put (regs : RegFile) (r : RegIndex) (u v : Byte) : put (put regs r u) r v = put regs r v :=
  Vector.set_set ..

/-- Settles O24: the rows of POP, with the byte that is incremented: SP, or for `POP R7` the popped byte. -/
theorem popResult : Obligations.PopResult := by
  unfold Obligations.PopResult
  refine fun a s => ⟨rfl, fun ra ha => ⟨fun hsp => exec_of_raises (.popEmpty ha hsp), fun hsp hra htop => ?_,
    fun hsp hra htop => ?_, fun hsp hra htop => ?_, fun hsp hra htop => ?_⟩, raises_first rfl s⟩
  · rw [execPop_eq ha hsp (by rwa [popBase_of_ne hra]), popBase_of_ne hra]
  · exact exec_of_raises (.popAtTop ha hsp ((popBase_of_ne hra).trans htop))
  · subst hra
    rw [execPop_eq ha hsp (by rwa [popBase_seven]), popBase_seven, put_put]
  · subst hra
    exact exec_of_raises (.popAtTop ha hsp ((popBase_seven s).trans htop))

theorem execRet_eq {s : State} (hsp : s.reg 7 ≠ 0xF4#8) (htop : s.reg 7 ≠ 0xFF#8) :
    exec .ret s = .next { s with
      regs := put s.regs 7 (s.reg 7 + 1#8), pc := BitVec.ofNat 9 (s.mem.read (s.reg 7).toNat).toNat } := by
  rw [exec_of_completes (.ret hsp htop), zext9_eq_ofNat]
  rfl

/-- Settles O27: the rows of RET. -/
theorem returnResult : Obligations.ReturnResult := by
  unfold Obligations.ReturnResult
  exact fun s => ⟨rfl, fun hsp => exec_of_raises (.retEmpty hsp), fun htop => exec_of_raises (.retAtTop htop),
    execRet_eq⟩

/-! ## What was pushed comes back -/

theorem sp_pushed (s : State) (v : Byte) : (s.pushed v).sp = s.sp - 1#8 :=
  (reg_pushed s v Config.spIndex).trans (if_pos rfl)

/-- The byte a push stored is at the new SP. -/
theorem read_pushed {s : State} (hm : s.mem.wf) (v : Byte) : (s.pushed v).mem.read (s.sp - 1#8).toNat = v :=
  read_write_same hm.1 _ v

/-- After a push the stack is neither empty nor at the top. -/
theorem decremented_sp {v : Byte} (h0 : v ≠ 0#8) (h5 : v ≠ 0xF5#8) : v - 1#8 ≠ 0xF4#8 ∧ v - 1#8 ≠ 0xFF#8 := by
  bv_omega

/-- The registers after a POP. -/
theorem reg_popped (s : State) (ra r : RegIndex) (v w : Byte) (n : Nat) :
    (((s.setReg ra v).setSp w).advance n).reg r = if r = 7 then w else if r = ra then v else s.reg r := by
  rw [advance_reg, reg_setSp, reg_setReg]

/-- POP right after a push, into a register other than SP, gives the pushed byte and the SP before the push. -/
theorem pop_of_pushed {s : State} {b : Byte} {rb : RegIndex} (hm : s.mem.wf) (hb : b.toNat = rb.val) (hrb : rb ≠ 7)
    (h0 : s.sp ≠ 0#8) (h5 : s.sp ≠ 0xF5#8) (v : Byte) (n : Nat) :
    ∃ u, exec (.pop b) ((s.pushed v).advance n) = .next u ∧
      ∀ r : RegIndex, u.reg r = if r = 7 then s.sp else if r = rb then v else s.reg r := by
  obtain ⟨hne, htop⟩ := decremented_sp h0 h5
  have hsp : ((s.pushed v).advance n).sp = s.sp - 1#8 := sp_pushed s v
  have hbase : ((s.pushed v).advance n).popBase rb = s.sp - 1#8 := (popBase_of_ne hrb).trans hsp
  refine ⟨_, exec_of_completes (.pop hb (by rwa [hsp]) (by rwa [hbase])), fun r => ?_⟩
  rw [reg_popped, hbase, hsp, advance_mem, read_pushed hm, BitVec.sub_add_cancel]
  split
  · rfl
  · next hr => rw [advance_reg, reg_pushed, if_neg hr]

/-- Settles O25: PUSH is a push of the register's value, and POP after a push is `pop_of_pushed`. -/
theorem pushThenPopRestores : Obligations.PushThenPopRestores := by
  unfold Obligations.PushThenPopRestores
  intro a b ra rb s hm ha hb hra hrb h0 h5
  have hpush := exec_of_completes (.push (s := s) ha h0)
  rw [reg_after_decrement, if_neg hra] at hpush
  obtain ⟨u, hpop, hreg⟩ := pop_of_pushed hm hb hrb h0 h5 (s.reg ra) 1
  refine ⟨_, u, hpush, hpop, ?_, ?_, fun r hr => ?_⟩
  · rw [hreg, if_neg hrb, if_pos rfl]
  · rw [hreg, if_pos rfl]
    rfl
  · rw [hreg, if_neg hr]
    split
    · next h7 => rw [h7]; rfl
    · rfl

/-- RET at the SP that a push left resumes at the byte it finds there, with the SP before the push. -/
theorem ret_of_decremented {u : State} {sp v : Byte} (h0 : sp ≠ 0#8) (h5 : sp ≠ 0xF5#8) (hsp : u.sp = sp - 1#8)
    (hread : u.mem.read u.sp.toNat = v) :
    ∃ w, exec .ret u = .next w ∧ w.pc.toNat = v.toNat ∧ w.reg 7 = sp := by
  obtain ⟨hne, htop⟩ := decremented_sp h0 h5
  refine ⟨_, exec_of_completes (.ret (by rwa [hsp]) (by rwa [hsp])), ?_, ?_⟩
  · rw [setPc_pc, zext9_toNat, hread]
  · rw [setPc_reg, reg_setSp, if_pos rfl, hsp, BitVec.sub_add_cancel]

/-- Settles O28: CALL pushed `p + 2` modulo 256 (`read_pushed`), and RET finds that byte (`ret_of_decremented`). -/
theorem returnResumesAfterTheCall : Obligations.ReturnResumesAfterTheCall := by
  unfold Obligations.ReturnResumesAfterTheCall
  intro a ra s hm ha h0 h5
  refine ⟨_, exec_of_completes (.call ha h0), fun u hsp hread => ?_⟩
  have hdec : (s.pushed (BitVec.ofNat 8 (s.pc.toNat + 2))).reg 7 = s.sp - 1#8 := sp_pushed s _
  rw [setPc_reg, setPc_mem, hdec, read_pushed hm] at hread
  obtain ⟨w, hret, hpc, hw⟩ := ret_of_decremented h0 h5 (hsp.trans hdec) hread
  exact ⟨w, hret, hpc.trans (BitVec.toNat_ofNat ..), hw⟩

/-- A step fetches the byte at the address its PC holds. -/
theorem ir_of_step_at {t u : State} {w : Byte} (hpc : t.pc.toNat = w.toNat) (h : step t = .next u) :
    u.ir = t.mem.read w.toNat := by
  have hle : t.pc.toNat ≤ 255 := by have := w.isLt; omega
  rw [ir_of_step hle h, hpc]

/-- Settles O38: both leave the memory of a push, whose byte the fetch reads (`ir_of_step_at`). -/
theorem storedByteIsFetchedNext : Obligations.StoredByteIsFetchedNext := by
  unfold Obligations.StoredByteIsFetchedNext
  intro a ra s t u w hm hrun ha haddr hpc hstep
  obtain ⟨hsp, rfl⟩ := pushAddress_eq_ok_iff.1 haddr
  refine ⟨fun h => ?_, fun h => ?_⟩
  · obtain rfl := Host.Outcome.next.inj ((exec_of_completes (.push ha hsp)).symm.trans h)
    exact (ir_of_step_at hpc hstep).trans (read_pushed hm _)
  · obtain rfl := Host.Outcome.next.inj ((exec_of_completes (.call ha hsp)).symm.trans h)
    exact (ir_of_step_at hpc hstep).trans (read_pushed hm _)

end Sys2Proof.Machine
end
